-- ==== Sys2Proof/Word.lean ====
section
/-! DEFINITION. The word and byte types of the block: every register, operand and result is a 64-bit unsigned value
(rules R7, R9); a byte lane is 8 bits (R75). -/

namespace Sys2Proof

/-- `XLEN` = 64 (R7, R9): a register, an operand, a result, a command word. -/
abbrev Word := BitVec 64

/-- One byte lane of the host's bus (R75). -/
abbrev Byte := BitVec 8

/-- A mathematical integer stored in a 64-bit register. Each use says why the value is below 2^64 (R10). -/
abbrev toWord (n : Nat) : Word := BitVec.ofNat 64 n

end Sys2Proof
end

