-- ==== Sys2Proof/Config.lean ====
section
/-! DEFINITION. What a PRH1 block fixes (the parameter table of rule R7) and the two parameters the platform leaves
open (D40, D41). `LATENCY` is not modelled (R7, R249: no rule depends on it). -/

namespace Sys2Proof

/-- The parameters on which the result of `FACTOR` depends (R7, R8, R151): a model takes `RHO_BATCH0` as an argument, and
may take the seed and the constant as arguments. -/
structure Params where
  batch0 : Nat
  seed   : Nat
  c      : Nat
deriving DecidableEq, Repr

namespace Config

/-- The values a PRH1 block takes (R7, R8): `RHO_BATCH0 = 2`, `RHO_SEED = 2`, `RHO_C = 1`. -/
def prh1 : Params := { batch0 := 2, seed := 2, c := 1 }

/-- `MAX_DIGITS` (R7): the longest digit sequence the digit engine accepts. -/
abbrev maxDigits : Nat := 16

/-- `RHO_BATCH_MAX` (R7, R147): where the doubling of the batch saturates. -/
abbrev rhoBatchMax : Nat := 2 ^ 63

/-- `ACCESS_BYTES` (R7, R72): the only legal access size. -/
abbrev accessBytes : Nat := 8

/-- The largest legal offset of the 256-byte window (R70, R72; `ADDR_W` = 8). -/
abbrev lastOffset : Nat := 0xF8

/-- `ID_VALUE` (R7, R31). -/
def idValue : Word := 0x5052483102100001#64

/-- `PRH_BASE` (R70, R78, D40): where the platform puts the window. Open: nothing is known of it (log 12). -/
opaque prhBase : Nat

/-- `PRH_IRQ` (R195, D41): which input of the host's interrupt controller `irq` drives. Open (log 12). -/
opaque prhIrq : Nat

/-- The system address of a window offset (R70, R78). No rule of the block depends on it. -/
def systemAddress (off : Nat) : Nat := prhBase + off

end Config

end Sys2Proof
end

