-- ==== Sys2Proof/Syntax.lean ====
section
/-! DEFINITION. The commands of the block (rule R93): the whole opcode table, one constructor per row. A command word
carries no register number, immediate or mode (R90, R92), so no constructor has an argument. -/

namespace Sys2Proof

/-- The eight commands, in the order of their opcodes (R93). -/
inductive Instr where
  /-- 0x00, R180: no operation. -/
  | nop
  /-- 0x01, R110: digit sequence of `OPA`. -/
  | digits
  /-- 0x02, R115: zero or repeated digit in the packed sequence `OPA` of length `OPB`. -/
  | invchk
  /-- 0x03, R120: traversal of the packed sequence `OPA` of length `OPB`. -/
  | visitchk
  /-- 0x04, R125: magic-number check of `OPA`. -/
  | magic
  /-- 0x05, R140: Pollard-rho factor of `OPA`. -/
  | factor
  /-- 0x06, R160: inverse of `OPA` modulo `OPB`. -/
  | modinv
  /-- 0x07, R170: `OPA` to the power `OPB` modulo `OPC`. -/
  | modpow
deriving DecidableEq, Repr

/-- All commands, in opcode order. -/
def Instr.all : List Instr := [.nop, .digits, .invchk, .visitchk, .magic, .factor, .modinv, .modpow]

end Sys2Proof
end

