-- ==== Sys2Proof/Machine/Bus.lean ====
section
/-! DEFINITION. The host's side of the register window: the registers by name and offset (rule R30), an access (R71), when
it is legal (R72), its response (R72, D2), the byte lanes (R75), and the events that say which agent moves next (R14). -/

namespace Sys2Proof.Machine

/-- The fourteen registers of the window (R30). -/
inductive Reg where
  | id | ctrl | status | cmd | opa | opb | opc | res0 | res1
  | iterLimit | iterCount | rhoX | rhoY | rhoBatch
deriving DecidableEq, Repr

def Reg.all : List Reg :=
  [.id, .ctrl, .status, .cmd, .opa, .opb, .opc, .res0, .res1, .iterLimit, .iterCount, .rhoX, .rhoY, .rhoBatch]

/-- The offset column of R30. -/
def Reg.off : Reg → Nat
  | .id        => 0x00
  | .ctrl      => 0x08
  | .status    => 0x10
  | .cmd       => 0x18
  | .opa       => 0x20
  | .opb       => 0x28
  | .opc       => 0x30
  | .res0      => 0x38
  | .res1      => 0x40
  | .iterLimit => 0x48
  | .iterCount => 0x50
  | .rhoX      => 0x58
  | .rhoY      => 0x60
  | .rhoBatch  => 0x68

/-- The register at an offset; `none` at a reserved offset (R30, R51). -/
def Reg.ofOff (off : Nat) : Option Reg := Reg.all.find? fun r => r.off == off

/-- A host access: `MemRead(off, size)` or `MemWrite(off, size, v)` (R71). Offset and size are unbounded here, so that
an access outside the window can be written down (log 6). -/
inductive Access where
  | read  (off size : Nat)
  | write (off size : Nat) (v : Word)
deriving DecidableEq, Repr

def Access.off : Access → Nat
  | .read off _    => off
  | .write off _ _ => off

def Access.size : Access → Nat
  | .read _ size    => size
  | .write _ size _ => size

/-- `legal(off, size)` of R72. -/
def legal (off size : Nat) : Bool :=
  size == Config.accessBytes && off % 8 == 0 && decide (off ≤ Config.lastOffset)

def Access.legal (a : Access) : Bool := Machine.legal a.off a.size

/-- What the response channel gives the host (R72, R74; D2): the value read, a normal response to a write, or the error
response `BusError(off, size)`. -/
inductive Response where
  | data (v : Word)
  | written
  | busError (off size : Nat)
deriving DecidableEq, Repr

/-- `rsp_err` (R72). -/
def Response.err : Response → Bool
  | .busError _ _ => true
  | _             => false

/-- `rsp_rdata`: the value read; 0 for an illegal read (R72: "a read returns 0"); none for a legal write. DESIGN CHOICE
(log 20): the error response to an illegal write, whose data R72 does not state, carries 0 too. -/
def Response.rdata : Response → Option Word
  | .data v       => some v
  | .written      => none
  | .busError _ _ => some 0

/-- Byte lane `k` carries bits `[8k+7:8k]` (R75, little-endian). -/
def lane (k : Nat) (v : Word) : Byte := v.extractLsb' (8 * k) 8

/-- The eight lanes of a register, lane 0 first (R75). -/
def lanes (v : Word) : List Byte := (List.range 8).map fun k => lane k v

/-- The value whose lanes are given, lane 0 first (R75). -/
def ofLanes : List Byte → Nat
  | []      => 0
  | b :: bs => b.toNat + 256 * ofLanes bs

/-- Which agent moves (R14), with what access. -/
inductive Event where
  /-- Some host makes this access (R71); hosts are not told apart (R213). -/
  | access (a : Access)
  /-- The host program held in the state executes its next statement (R96). -/
  | host
  /-- The engine takes its step, if it has one (R183). -/
  | engine
  /-- `rst` is asserted (R230); an access made in the same cycle is lost. -/
  | reset (lost : Option Access)
deriving DecidableEq, Repr

end Sys2Proof.Machine
end

