-- ==== Sys2Proof/Machine/HostProgram.lean ====
section
/-! DEFINITION. Host programs: the notation of rule R96 as syntax, what a statement asks of the bus and does to the host's
variables, the pseudo-instructions and their expansion (R97), and a program's encoding as bus transactions (R98), given
the values its reads return. The host is no part of the block (D34); it is the second agent of the model (R14; log 2). -/

namespace Sys2Proof.Machine

/-- Host arithmetic on host variables, which are unbounded integers (R96). Variable `t` is named by its number. DESIGN
CHOICE (log 22): R96 says only "host arithmetic"; the operators are those the programs of 95_test_vectors use. -/
inductive Expr where
  | num (n : Int)
  | var (t : Nat)
  /-- element `i` of a list of variables that starts at `base` (`out[cnt]` of program P2; log 2) -/
  | elem (base : Nat) (i : Expr)
  | add (a b : Expr)
  | sub (a b : Expr)
  | mul (a b : Expr)
  /-- `t[i]`: bit `i` of a value (R9) -/
  | bit (a : Expr) (i : Nat)
deriving DecidableEq, Repr

/-- The condition of `IF cond GOTO label` (R96). DESIGN CHOICE (log 22): R96 does not say what a `cond` may be; it is one
comparison of two expressions, by `=`, `!=` or `<=` as those programs use, or `<`. -/
inductive Cond where
  | eq (a b : Expr)
  | ne (a b : Expr)
  | le (a b : Expr)
  | lt (a b : Expr)
deriving DecidableEq, Repr

/-- The statements of R96. -/
inductive Stmt where
  | wr (r : Reg) (e : Expr)
  | rd (t : Nat) (r : Reg)
  | set (t : Nat) (e : Expr)
  /-- `out[i] <- e` (program P2; log 2) -/
  | setElem (base : Nat) (i e : Expr)
  | ifGoto (c : Cond) (l : Nat)
  | goto (l : Nat)
  | label (l : Nat)
  | halt
deriving DecidableEq, Repr

/-- Host variables that have been set, by number, strictly rising. -/
abbrev Vars := List (Nat × Int)

def Vars.get (vs : Vars) (t : Nat) : Option Int := (vs.find? fun p => p.1 == t).map Prod.snd

def Vars.put : Vars → Nat → Int → Vars
  | [], t, v => [(t, v)]
  | (u, w) :: vs, t, v =>
    if t < u then (t, v) :: (u, w) :: vs
    else if t = u then (t, v) :: vs
    else (u, w) :: Vars.put vs t v

/-- The canonical form: numbers strictly rising. -/
def Vars.wf (vs : Vars) : Bool := decide ((vs.map Prod.fst).Pairwise (· < ·))

/-- The host agent: its program, its position in it, its variables, and whether its run has ended (R96, R248). -/
structure HostState where
  prog   : List Stmt
  pos    : Nat
  vars   : Vars
  halted : Bool
deriving DecidableEq, Repr

/-- No program: the host makes no access of its own (log 2). -/
def HostState.none : HostState := { prog := [], pos := 0, vars := [], halted := true }

/-- A program about to run, with no host variables set. -/
def HostState.start (prog : List Stmt) : HostState := { prog := prog, pos := 0, vars := [], halted := false }

/-- The word of a host integer: `WR` takes those in `[0, 2^64)` (R96). -/
def wordOf (v : Int) : Option Word := if 0 ≤ v ∧ v < 2 ^ 64 then some (BitVec.ofInt 64 v) else Option.none

/-- Element `i` of a list of variables; no variable has a negative index (log 2). -/
def elemVar (base : Nat) (i : Int) : Option Nat := if i < 0 then Option.none else some (base + i.toNat)

/-- The value of an expression; `none` where it reads a variable that is not set. DESIGN CHOICE (log 19): bit `i` of a
negative integer, where R9 and R96 are silent, is that of its two's complement, `⌊a / 2^i⌋ mod 2`. -/
def Expr.eval (vs : Vars) : Expr → Option Int
  | .num n    => some n
  | .var t    => vs.get t
  | .elem b i => do vs.get (← elemVar b (← i.eval vs))
  | .add a b  => do some ((← a.eval vs) + (← b.eval vs))
  | .sub a b  => do some ((← a.eval vs) - (← b.eval vs))
  | .mul a b  => do some ((← a.eval vs) * (← b.eval vs))
  | .bit a i  => do some ((← a.eval vs) / 2 ^ i % 2)

def Cond.eval (vs : Vars) : Cond → Option Bool
  | .eq a b => do some (decide ((← a.eval vs) = (← b.eval vs)))
  | .ne a b => do some (decide ((← a.eval vs) ≠ (← b.eval vs)))
  | .le a b => do some (decide ((← a.eval vs) ≤ (← b.eval vs)))
  | .lt a b => do some (decide ((← a.eval vs) < (← b.eval vs)))

/-- Why a host program cannot go on: it breaks a condition of the notation (R96; log 2). -/
inductive HostError where
  /-- an expression reads a host variable that is not set -/
  | variableUnset
  /-- `WR REG, expr` with `expr` outside `[0, 2^64)` -/
  | valueOutOfRange
  /-- a `GOTO` to a label the program does not hold -/
  | labelMissing
deriving DecidableEq, Repr

/-- What the next statement of a host program does. -/
inductive HostAction where
  /-- nothing: the program has ended -/
  | idle
  /-- host arithmetic or control flow, no transaction -/
  | silent (h : HostState)
  /-- the transaction `W off data`, then the host goes on as `h` -/
  | write (off : Nat) (v : Word) (h : HostState)
  /-- the transaction `R off`, whose value goes to variable `t` of `h` -/
  | read (off : Nat) (t : Nat) (h : HostState)
  | stuck (e : HostError)
deriving DecidableEq, Repr

/-- The bus transaction of a statement that is run: `W off data`, `R off` or none (the last column of R96's table). -/
def HostAction.transaction : HostAction → Option Access
  | .idle          => none
  | .silent _      => none
  | .write off v _ => some (.write off Config.accessBytes v)
  | .read off _ _  => some (.read off Config.accessBytes)
  | .stuck _       => none

namespace HostState

/-- A jump (R96). DESIGN CHOICE (log 21): where a label stands more than once, on which R96 is silent, the jump goes to its
first place; `programWellFormed` refuses such a program, and `step` does not ask it. -/
def goto (h : HostState) (l : Nat) : HostAction :=
  match h.prog.findIdx? (· == .label l) with
  | some p      => .silent { h with pos := p }
  | Option.none => .stuck .labelMissing

def setVar (h : HostState) (t : Nat) (v : Int) : HostState := { h with vars := h.vars.put t v }

/-- One statement (R96). A program that runs off its end has ended, as at `HALT` (log 2). -/
def next (h : HostState) : HostAction :=
  if h.halted then .idle else
  let h' := { h with pos := h.pos + 1 }
  match h.prog[h.pos]? with
  | Option.none    => .idle
  | some .halt     => .silent { h with halted := true }
  | some (.label _) => .silent h'
  | some (.goto l) => h.goto l
  | some (.ifGoto c l) =>
    match c.eval h.vars with
    | some true   => h.goto l
    | some false  => .silent h'
    | Option.none => .stuck .variableUnset
  | some (.set t e) =>
    match e.eval h.vars with
    | some v      => .silent (h'.setVar t v)
    | Option.none => .stuck .variableUnset
  | some (.setElem b i e) =>
    match (i.eval h.vars).bind (elemVar b), e.eval h.vars with
    | some t, some v => .silent (h'.setVar t v)
    | _, _           => .stuck .variableUnset
  | some (.rd t r) => .read r.off t h'
  | some (.wr r e) =>
    match e.eval h.vars with
    | some v      =>
      match wordOf v with
      | some w      => .write r.off w h'
      | Option.none => .stuck .valueOutOfRange
    | Option.none => .stuck .variableUnset

/-- The bus transactions, in order, of the next `n` statements that the host runs, where `vals` are the values its reads
return, the first read's first (R98). A loop gives its transactions once a pass, and what is written may depend on what
was read. The list ends with the program, with a statement that is stuck, and with a read whose value is not in `vals`
(log 24). -/
def transactions : Nat → List Word → HostState → List Access
  | 0, _, _        => []
  | n + 1, vals, h =>
    match h.next with
    | .idle           => []
    | .silent h'      => transactions n vals h'
    | .write off v h' => .write off Config.accessBytes v :: transactions n vals h'
    | .read off t h'  =>
      .read off Config.accessBytes ::
        match vals with
        | []      => []
        | v :: vs => transactions n vs (h'.setVar t v.toNat)
    | .stuck _        => []

end HostState

/-- The pseudo-instructions of R97. -/
inductive Pseudo where
  | nop
  | digits (a : Expr)
  | invchk (a b : Expr)
  | visitchk (a b : Expr)
  | magic (a : Expr)
  | factor (a : Expr)
  | modinv (a b : Expr)
  | modpow (a b c : Expr)
  /-- `WAIT t`, its label given -/
  | wait (t l : Nat)
  | clr
  /-- `ABORT ie`: the interrupt enables to keep. DESIGN CHOICE (log 23): `ie` is an expression, as a command's operands
  are, and that its value has 2 bits is not checked -/
  | abort (ie : Expr)
deriving DecidableEq, Repr

/-- The expansions of R97: operand writes first, `OPA`, `OPB`, `OPC` in order, the `CMD` write last. -/
def Pseudo.expand : Pseudo → List Stmt
  | .nop          => [.wr .cmd (.num 0x00)]
  | .digits a     => [.wr .opa a, .wr .cmd (.num 0x01)]
  | .invchk a b   => [.wr .opa a, .wr .opb b, .wr .cmd (.num 0x02)]
  | .visitchk a b => [.wr .opa a, .wr .opb b, .wr .cmd (.num 0x03)]
  | .magic a      => [.wr .opa a, .wr .cmd (.num 0x04)]
  | .factor a     => [.wr .opa a, .wr .cmd (.num 0x05)]
  | .modinv a b   => [.wr .opa a, .wr .opb b, .wr .cmd (.num 0x06)]
  | .modpow a b c => [.wr .opa a, .wr .opb b, .wr .opc c, .wr .cmd (.num 0x07)]
  | .wait t l     => [.label l, .rd t .status, .ifGoto (.eq (.bit (.var t) 0) (.num 1)) l]
  | .clr          => [.wr .status (.num 0xE)]
  | .abort ie     => [.wr .ctrl (.add ie (.num 4))]

/-- A program's encoding (R98): the bus transactions of its first `n` statements run with the host variables `vs` set,
where its reads return `vals`. A program from reset has none set; what its reads return is the block's to say, and
`programTransactions` takes it from there (log 24). -/
def encodeProgram (n : Nat) (vals : List Word) (vs : Vars) (prog : List Stmt) : List Access :=
  HostState.transactions n vals { HostState.start prog with vars := vs }

end Sys2Proof.Machine
end

