-- ==== Sys2Proof/WellFormed.lean ====
section
/-! DEFINITION. The checks on syntax. A command has no operand field, so each of the eight is well formed (rules R90, R92,
R93). A host access is well formed iff it is legal (R72). A host program is well formed iff each label it jumps to stands
in it exactly once, and each constant it writes lies in [0, 2^64) (R96). -/

namespace Sys2Proof

/-- Every command of R93 is well formed: a command has no operand field (R92). One arm per constructor. -/
def Instr.wellFormed : Instr → Bool
  | .nop      => true
  | .digits   => true
  | .invchk   => true
  | .visitchk => true
  | .magic    => true
  | .factor   => true
  | .modinv   => true
  | .modpow   => true

namespace Machine

/-- The conditions of R72, as the check of an access written in a list of transactions. -/
def Access.wellFormed (a : Access) : Bool := a.legal

def Stmt.target : Stmt → Option Nat
  | .goto l     => some l
  | .ifGoto _ l => some l
  | _           => none

/-- A constant written by `WR` lies in `[0, 2^64)` (R96); another expression is checked when it is evaluated. -/
def Stmt.constantOk : Stmt → Bool
  | .wr _ (.num n) => decide (0 ≤ n ∧ n < 2 ^ 64)
  | _              => true

/-- Each label jumped to stands in the program exactly once. -/
def targetsOk (prog : List Stmt) : Bool :=
  (prog.filterMap Stmt.target).all fun l => prog.countP (· == .label l) == 1

def programWellFormed (prog : List Stmt) : Bool := targetsOk prog && prog.all Stmt.constantOk

end Machine

end Sys2Proof
end

