-- ==== Sys2Proof/Decode.lean ====
section
/-! DEFINITION. The decoder of rule R94, total on every 64-bit word, with `Illegal` as a verdict of its own; after it the
encoder, written from the opcode map of R93. -/

namespace Sys2Proof

/-- The verdict of `decode` (R94): a command, or `Illegal`. -/
inductive Verdict where
  | command (i : Instr)
  | illegal
deriving DecidableEq, Repr

/-- The field `OPCODE`, bits 7:0 (R90). -/
def opcodeField (v : Word) : BitVec 8 := v.extractLsb' 0 8

/-- The field `RSVD`, bits 63:8 (R90). -/
def rsvdField (v : Word) : BitVec 56 := v.extractLsb' 8 56

/-- The opcode map of R93, read from the opcode; `none` for 0x08 to 0xFF (R94, R95). -/
def Instr.ofOpcode (op : BitVec 8) : Option Instr :=
  match op.toNat with
  | 0x00 => some .nop
  | 0x01 => some .digits
  | 0x02 => some .invchk
  | 0x03 => some .visitchk
  | 0x04 => some .magic
  | 0x05 => some .factor
  | 0x06 => some .modinv
  | 0x07 => some .modpow
  | _    => none

/-- `decode(v)` of R94: a nonzero `RSVD` first, then the opcode. -/
def decode (v : Word) : Verdict :=
  if rsvdField v ≠ 0 then .illegal
  else match Instr.ofOpcode (opcodeField v) with
    | some i => .command i
    | none   => .illegal

/-- The decoder on bytes as the bus carries them, lane 0 first (R75, R91): a command word is eight bytes, so any other
number of bytes is no command. -/
def decodeBytes (bs : List Byte) : Verdict :=
  if bs.length = 8 then decode (toWord (Machine.ofLanes bs)) else .illegal

/-- The `OPCODE` of a command (R93). -/
def Instr.opcode : Instr → BitVec 8
  | .nop      => 0x00#8
  | .digits   => 0x01#8
  | .invchk   => 0x02#8
  | .visitchk => 0x03#8
  | .magic    => 0x04#8
  | .factor   => 0x05#8
  | .modinv   => 0x06#8
  | .modpow   => 0x07#8

/-- The command word: `RSVD` = 0, then the opcode (R90, R93). -/
def encode (i : Instr) : Word := 0#56 ++ i.opcode

def Verdict.toOption : Verdict → Option Instr
  | .command i => some i
  | .illegal   => none

/-- The instruction the decoder reads from a table word of `nbits` bits (bit 0 the least significant bit of the one
64-bit word of a command, R90, R91); every bit above `nbits` is 0. -/
def decodeTableWord (nbits w : Nat) : Option Instr :=
  let v := w % 2 ^ nbits
  if v < 2 ^ 64 then (decodeBytes (Machine.lanes (toWord v))).toOption else none

end Sys2Proof
end

