-- ==== Sys2Proof/Machine/State.lean ====
section
/-! DEFINITION. The state of the block: every register of the window (rule R30) and every hidden register (R47), with the
environment that the model holds beside it (events, response, host program), and the state after reset (R50, R230). -/

namespace Sys2Proof.Machine

/-- Why the machine stops. The block itself raises no fault: its failures are next states (R193, R197). -/
inductive Fault where
  /-- Raised by the engine's turn when `BUSY = 1` and `ENG_OP` is no opcode: R183 has no arm for it. No run reaches such
  a state. Safe (log 4). -/
  | engineOpUndefined
  /-- Raised by an engine step whose snapshots lie outside the command's domain: "No rule ever applies them with `b = 0`"
  (R10), the accept checks the domain first (R181). No run reaches such a state. Safe (log 4). -/
  | snapshotOutOfDomain
  /-- Raised by the host program's turn when its statement breaks a condition of the notation (R96). Safe (log 2). -/
  | hostStuck (e : HostError)
deriving DecidableEq, Repr

/-- Why the machine gives an instruction no meaning. -/
inductive Refusal where
  /-- Raised by an arm of `exec` for an instruction without a meaning; no arm does. Safe. -/
  | notModelled (mnemonic : String)
deriving DecidableEq, Repr

/-- The state. `ID` is a constant, `CMD` holds no value (R41), `irq` is a function of the state (R48). -/
structure State where
  /-- `CTRL.IE_DONE` (R34) -/
  ieDone : Bool
  /-- `CTRL.IE_ERR` (R34) -/
  ieErr : Bool
  /-- `STATUS.BUSY` (R36) -/
  busy : Bool
  /-- `STATUS.DONE` (R37) -/
  done : Bool
  /-- `STATUS.ERR` (R38) -/
  err : Bool
  /-- `STATUS.OVR` (R39) -/
  ovr : Bool
  /-- `STATUS.ERRCODE` (R35, R190) -/
  errcode : BitVec 4
  /-- `STATUS.LASTOP` (R39) -/
  lastop : BitVec 8
  /-- `OPA` (R42) -/
  opa : Word
  /-- `OPB` (R42) -/
  opb : Word
  /-- `OPC` (R42) -/
  opc : Word
  /-- `RES0` (R43) -/
  res0 : Word
  /-- `RES1` (R43) -/
  res1 : Word
  /-- `ITER_LIMIT` (R45) -/
  iterLimit : Word
  /-- `ITER_COUNT` (R46) -/
  iterCount : Word
  /-- `RHO_X` (R44) -/
  rhoX : Word
  /-- `RHO_Y`, the checkpoint (R44) -/
  rhoY : Word
  /-- `RHO_BATCH` (R44) -/
  rhoBatch : Word
  /-- hidden `ENG_OP` (R47) -/
  engOp : BitVec 8
  /-- hidden `SA`, the snapshot of `OPA` (R47) -/
  sa : Word
  /-- hidden `SB`, the snapshot of `OPB` (R47) -/
  sb : Word
  /-- hidden `SC`, the snapshot of `OPC` (R47) -/
  sc : Word
  /-- hidden `SLIM`, the snapshot of `ITER_LIMIT` (R47) -/
  slim : Word
  /-- hidden `RHO_CNT`, the position within the batch (R47) -/
  rhoCnt : Word
  /-- hidden `RHO_D`, the last gcd (R47) -/
  rhoD : Word
  /-- The model's own: which agent moves next, oldest first (R14; log 1). -/
  events : List Event
  /-- The model's own: the last response on the response channel (R71, R72; log 5). -/
  rsp : Option Response
  /-- The model's own: the host program (R96; log 2). -/
  host : HostState
deriving DecidableEq, Repr

/-- The state right after reset (R50, R230): every register of the block is 0; no event, no response, no host program. -/
def State.reset : State where
  ieDone := false
  ieErr := false
  busy := false
  done := false
  err := false
  ovr := false
  errcode := 0
  lastop := 0
  opa := 0
  opb := 0
  opc := 0
  res0 := 0
  res1 := 0
  iterLimit := 0
  iterCount := 0
  rhoX := 0
  rhoY := 0
  rhoBatch := 0
  engOp := 0
  sa := 0
  sb := 0
  sc := 0
  slim := 0
  rhoCnt := 0
  rhoD := 0
  events := []
  rsp := none
  host := .none

/-- The outcome of one transition. -/
abbrev Result := Host.Outcome State Fault Refusal

/-- What a turn of the environment comes to: a finished transition, or the next transition of a command, which `exec`
makes. -/
inductive Turn where
  | finished (o : Result)
  | command (i : Instr) (s : State)

end Sys2Proof.Machine
end

