-- ==== Sys2Proof/Machine/Flags.lean ====
section
/-! DEFINITION. The control and status words as the host reads them (rules R34, R35), the write-one-to-clear of `STATUS`
(R35), the error codes (R190) and the interrupt output (R48, R195). -/

namespace Sys2Proof.Machine

/-- The error codes of R190 that a block writes. -/
def errIllegal : BitVec 4 := 1
def errDomain : BitVec 4 := 2
def errNotCoprime : BitVec 4 := 3
def errLimit : BitVec 4 := 4
def errAborted : BitVec 4 := 5

/-- `CTRL` as read (R34): bit 0 `IE_DONE`, bit 1 `IE_ERR`; bit 2 and the reserved bits read 0. -/
def ctrlWord (s : State) : Word := toWord (s.ieDone.toNat + 2 ^ 1 * s.ieErr.toNat)

/-- `STATUS` as read (R35): `LASTOP` 23:16, `ERRCODE` 11:8, `OVR` 3, `ERR` 2, `DONE` 1, `BUSY` 0; the rest reads 0. -/
def statusWord (s : State) : Word :=
  toWord (s.busy.toNat + 2 ^ 1 * s.done.toNat + 2 ^ 2 * s.err.toNat + 2 ^ 3 * s.ovr.toNat +
    2 ^ 8 * s.errcode.toNat + 2 ^ 16 * s.lastop.toNat)

/-- A host write to `STATUS` (R35): bits 1, 2, 3 clear `DONE`, `ERR` with `ERRCODE`, and `OVR`; every other bit of `v` is
ignored. It is the acknowledgement of a completion or failure (R199). -/
def writeStatus (v : Word) (s : State) : State :=
  { s with
    done    := s.done && !v.getLsbD 1
    err     := s.err && !v.getLsbD 2
    errcode := if v.getLsbD 2 then 0 else s.errcode
    ovr     := s.ovr && !v.getLsbD 3 }

/-- The interrupt output (R48): a level, a function of the state. `OVR` raises no interrupt (R195). -/
def irq (s : State) : Bool := (s.done && s.ieDone) || (s.err && s.ieErr)

/-- The line at the host's interrupt controller: the platform's input number (R195, D41) and its level. -/
def irqLine (s : State) : Nat × Bool := (Config.prhIrq, irq s)

end Sys2Proof.Machine
end

