-- ==== Sys2Proof/Machine/Operands.lean ====
section
/-! DEFINITION. The two operand forms (rule R92): an integer, and packed digits with a length (R40, R13); and the domain
of each command (R182). -/

namespace Sys2Proof.Machine

/-- Nibble `i` of a register, `v[4i+3:4i]` (R9, R40). -/
def nibble (v i : Nat) : Nat := v / 16 ^ i % 16

/-- `unpack(v, L)` (R13): the sequence `D[i] = v[4i+3:4i]` for `i < L`; nibbles `L` and above are ignored (R40). -/
def unpack (v len : Nat) : List Nat := (List.range len).map (nibble v)

/-- `pack(D)` = Σ D[i]·16^i (R13). -/
def pack : List Nat → Nat
  | []      => 0
  | d :: ds => d + 16 * pack ds

/-- The packed-digits domain (R182): `1 ≤ L ≤ 16` and every nibble below `L` at most 9. -/
def packedOk (a b : Word) : Bool :=
  decide (1 ≤ b.toNat) && decide (b.toNat ≤ Config.maxDigits) && (unpack a.toNat b.toNat).all fun d => decide (d ≤ 9)

/-- The integer domain of `DIGITS` and `MAGIC` (R182): `1 ≤ n ≤ 10^16 − 1`. -/
def decimalOk (a : Word) : Bool := decide (1 ≤ a.toNat) && decide (a.toNat ≤ 10 ^ Config.maxDigits - 1)

/-- `domain_ok(op, a, b, c)` (R182). Operands a command ignores are not checked. -/
def domainOk (i : Instr) (a b c : Word) : Bool :=
  match i with
  | .nop      => true
  | .digits   => decimalOk a
  | .invchk   => packedOk a b
  | .visitchk => packedOk a b
  | .magic    => decimalOk a
  | .factor   => decide (1 ≤ a.toNat)
  | .modinv   => decide (1 ≤ b.toNat)
  | .modpow   => decide (1 ≤ c.toNat)

end Sys2Proof.Machine
end

