-- ==== Sys2Proof/Machine/Ops.lean ====
section
/-! DEFINITION. The operations every command shares: the failure `raise E(code)` (rule R193) with the abort (R198), the
completion (R184), the accept (R181), a command's next transition (R181, R183), the reset transition (R230), and the
reads of the window (R73). -/

namespace Sys2Proof.Machine

/-- `raise E(code)` (R193): the block's one failure entry. `LASTOP`, the operands and the rho registers keep what they
hold (R191); there is no program counter and no mode to save (R197). -/
def raiseErr (code : BitVec 4) (s : State) : State :=
  { s with busy := false, err := true, errcode := code }

/-- `complete()` (R184). -/
def complete (s : State) : State := { s with busy := false, done := true }

/-- An engine step that writes both results and completes (R43, R184). -/
def finish (r0 r1 : Word) (s : State) : State := complete { s with res0 := r0, res1 := r1 }

/-- `abort()` (R198). -/
def abort (s : State) : State := raiseErr errAborted s

/-- The first six lines of `accept(v)` (R181), with `op` the byte `v[7:0]`. -/
def beginAccept (op : BitVec 8) (s : State) : State :=
  { s with lastop := op, done := false, err := false, errcode := 0, res0 := 0, res1 := 0 }

/-- The accept of a word that does not decode (R181, R95). -/
def acceptIllegal (v : Word) (s : State) : State := raiseErr errIllegal (beginAccept (opcodeField v) s)

/-- The snapshots of an accept that passes its checks (R181, R47): `BUSY` becomes 1. -/
def launch (i : Instr) (s : State) : State :=
  { s with engOp := i.opcode, sa := s.opa, sb := s.opb, sc := s.opc, busy := true }

/-- `accept(v)` for a word that decodes to `i` (R181); `init` sets the engine's own working registers. -/
def accept (i : Instr) (init : State → State) (s : State) : State :=
  let s1 := beginAccept i.opcode s
  if domainOk i s1.opa s1.opb s1.opc then launch i (init s1) else raiseErr errDomain s1

/-- The next transition of command `i` (log 3): its accept where no command is in flight (R181); its engine step, made on
the snapshots, where it is in flight (R183). An engine step is defined only on snapshots in the command's domain (R10). -/
def command (i : Instr) (init engine : State → State) (s : State) : Result :=
  if s.busy then
    if domainOk i s.sa s.sb s.sc then .next (engine s) else .fault .snapshotOutOfDomain
  else .next (accept i init s)

/-- `rst` (R230): every register of the block takes its reset value; the environment's own fields stay (log 5, log 14). -/
def resetBlock (s : State) : State :=
  { State.reset with events := s.events, rsp := s.rsp, host := s.host }

/-- The register a name stands for, as the host reads it (R73). -/
def readReg (r : Reg) (s : State) : Word :=
  match r with
  | .id        => Config.idValue
  | .ctrl      => ctrlWord s
  | .status    => statusWord s
  | .cmd       => 0
  | .opa       => s.opa
  | .opb       => s.opb
  | .opc       => s.opc
  | .res0      => s.res0
  | .res1      => s.res1
  | .iterLimit => s.iterLimit
  | .iterCount => s.iterCount
  | .rhoX      => s.rhoX
  | .rhoY      => s.rhoY
  | .rhoBatch  => s.rhoBatch

/-- `read_reg(off)` (R73): a reserved offset returns 0. -/
def readOff (off : Nat) (s : State) : Word :=
  match Reg.ofOff off with
  | some r => readReg r s
  | none   => 0

/-- A host write to `CTRL` (R34): the enables take their new value before the abort is performed. -/
def writeCtrl (v : Word) (s : State) : State :=
  let s1 := { s with ieDone := v.getLsbD 0, ieErr := v.getLsbD 1 }
  if v.getLsbD 2 && s1.busy then abort s1 else s1

end Sys2Proof.Machine
end

