-- ==== Sys2Proof/Machine/Control.lean ====
section
/-! DEFINITION. `NOP` (rule R180), the command that belongs to no engine. -/

namespace Sys2Proof.Machine

/-- `NOP` in one engine step: `complete()`; `RES0` and `RES1` stay 0 from the accept (R180). -/
def nopStep (s : State) : State := complete s

/-- `NOP` (R180). -/
def execNop (s : State) : Result := command .nop id nopStep s

end Sys2Proof.Machine
end

