-- ==== Sys2Proof/Machine/Digits.lean ====
section
/-! DEFINITION. The digit engine: `DIGITS` (rules R110, R111), `INVCHK` (R115, R116), `VISITCHK` (R120, R121) and `MAGIC`
(R125, R126). -/

namespace Sys2Proof.Machine

/-- The least `L` with `n < 10^L` (R111). The engine meets only `n < 10^16`, so a search to 16 is enough. -/
def digitCount (n : Nat) : Nat :=
  ((List.range (Config.maxDigits + 1)).find? fun len => decide (n < 10 ^ len)).getD Config.maxDigits

/-- The digit sequence of `n` (R111): `D[i] = (n div 10^(L-1-i)) mod 10`, `D[0]` most significant. -/
def digitSeq (n : Nat) : List Nat :=
  (List.range (digitCount n)).map fun i => n / 10 ^ (digitCount n - 1 - i) % 10

/-- Some value occurs twice: `exists i < j < L: D[i] = D[j]` (R116). -/
def hasRepeat : List Nat → Bool
  | []      => false
  | d :: ds => ds.contains d || hasRepeat ds

/-- The predicate of R116: a zero digit, or a repeated digit value. -/
def invalidDigits (ds : List Nat) : Bool := ds.contains 0 || hasRepeat ds

/-- One move of the traversal (R121): `p <- (p + D[p]) mod L`. -/
def move (ds : List Nat) (p : Nat) : Nat := (p + ds.getD p 0) % ds.length

/-- The last moves of R121's loop: `k` of them, from position `p` with the flag `early`. The step count after a move is
`s = L - k` for the `k` moves left after it, so `s < L` says that a move is left. -/
def walk (ds : List Nat) : Nat → Nat → Bool → Nat × Bool
  | 0, p, early     => (p, early)
  | k + 1, p, early => walk ds k (move ds p) (early || (decide (0 < k) && move ds p == 0))

/-- The value of R121: after exactly `L` moves the position is 0, and it was 0 after no earlier move. -/
def traversal (ds : List Nat) : Bool :=
  let r := walk ds ds.length 0 false
  r.1 == 0 && !r.2

/-- A boolean result: 1 or 0 (R116, R121). -/
def boolWord (b : Bool) : Word := if b then 1 else 0

/-- `digits_step()` (R111). `pack(D) < 16^16`, so it fits. -/
def digitsStep (s : State) : State :=
  let ds := digitSeq s.sa.toNat
  finish (toWord (pack ds)) (toWord ds.length) s

/-- `invchk_step()` (R116). -/
def invchkStep (s : State) : State := finish (boolWord (invalidDigits (unpack s.sa.toNat s.sb.toNat))) 0 s

/-- `visitchk_step()` (R121). -/
def visitchkStep (s : State) : State := finish (boolWord (traversal (unpack s.sa.toNat s.sb.toNat))) 0 s

/-- `magic_step()` (R126). -/
def magicStep (s : State) : State :=
  let ds := digitSeq s.sa.toNat
  if invalidDigits ds then finish 0 1 s
  else if traversal ds then finish 1 0 s
  else finish 0 2 s

/-- `DIGITS` (R110). -/
def execDigits (s : State) : Result := command .digits id digitsStep s

/-- `INVCHK` (R115). -/
def execInvchk (s : State) : Result := command .invchk id invchkStep s

/-- `VISITCHK` (R120). -/
def execVisitchk (s : State) : Result := command .visitchk id visitchkStep s

/-- `MAGIC` (R125). -/
def execMagic (s : State) : Result := command .magic id magicStep s

end Sys2Proof.Machine
end

