-- ==== Sys2Proof/Machine/Factor.lean ====
section
/-! DEFINITION. The rho engine: `FACTOR` (rules R140 to R151). The first batch size, the seed and the constant are
arguments (R7, R8, R151); `exec` takes their PRH1 values. -/

namespace Sys2Proof.Machine

/-- `|a − b|` (R10). -/
def absDiff (a b : Nat) : Nat := (a - b) + (b - a)

/-- The map `x → (x² + c) mod n`, exact (R142, R146). -/
def rhoMap (p : Params) (n x : Nat) : Nat := (x * x + p.c) % n

/-- The working registers `FACTOR`'s accept initialises (R181, R140). -/
def rhoStart (p : Params) (s : State) : State :=
  { s with
    slim := s.iterLimit
    iterCount := 0
    rhoX := toWord p.seed
    rhoY := toWord p.seed
    rhoBatch := toWord p.batch0
    rhoCnt := 0
    rhoD := 1 }

/-- The limit check at the head of R142 (R144). -/
def limitReached (s : State) : Bool := s.slim != 0 && s.iterCount == s.slim

/-- Map, gcd and counters of one iteration (R142). `RHO_X < n` and `RHO_D ≤ n`, so both fit; `gcd(0, n) = n` (R11, R143). -/
def rhoAdvance (p : Params) (s : State) : State :=
  let n := s.sa.toNat
  let x := rhoMap p n s.rhoX.toNat
  { s with
    rhoX := toWord x
    rhoD := toWord (Nat.gcd (absDiff x s.rhoY.toNat) n)
    rhoCnt := s.rhoCnt + 1
    iterCount := s.iterCount + 1 }

/-- The doubled batch size, saturating (R147). -/
def doubleBatch (b : Word) : Word := toWord (min (2 * b.toNat) Config.rhoBatchMax)

/-- The end of a batch, if the iteration ended it (R142). -/
def rhoBatchEnd (s : State) : State :=
  if s.rhoCnt = s.rhoBatch ∨ s.rhoD ≠ 1 then
    { s with rhoBatch := doubleBatch s.rhoBatch, rhoY := s.rhoX, rhoCnt := 0 }
  else s

/-- `rho_iteration()` (R142). `RHO_D` divides `n`, so the quotient is exact (R149). -/
def rhoIteration (p : Params) (s : State) : State :=
  if limitReached s then raiseErr errLimit s
  else
    let t := rhoBatchEnd (rhoAdvance p s)
    if t.rhoD ≠ 1 then finish t.rhoD (toWord (t.sa.toNat / t.rhoD.toNat)) t else t

/-- `FACTOR` (R140), with the PRH1 parameters. -/
def execFactor (s : State) : Result := command .factor (rhoStart Config.prh1) (rhoIteration Config.prh1) s

end Sys2Proof.Machine
end

