-- ==== Sys2Proof/Machine/Modinv.lean ====
section
/-! DEFINITION. The modular-inverse engine: `MODINV` (rules R160 to R165). -/

namespace Sys2Proof.Machine

/-- The loop of R163 over the mathematical integers, at most `fuel` turns: from `(r0, r1)` and `(t0, t1)` to the pair
`(r0, t0)` at `r1 = 0`. `r1` falls at every turn, so `fuel > r1` is enough. -/
def euclid : Nat → Nat → Nat → Int → Int → Nat × Int
  | 0, r0, _, t0, _           => (r0, t0)
  | fuel + 1, r0, r1, t0, t1  =>
    if r1 = 0 then (r0, t0)
    else euclid fuel r1 (r0 - r0 / r1 * r1) t1 (t0 - (r0 / r1 : Nat) * t1)

/-- The inverse of `e` modulo `phi` in R163's reference form; R161 defines it as the unique `d` with `1 ≤ d ≤ phi − 1`
and `(e·d) mod phi = 1` (log 10). -/
def inverse (e phi : Nat) : Nat :=
  let t := (euclid (e % phi + 1) phi (e % phi) 0 1).2
  (if 0 ≤ t then t else t + phi).toNat

/-- `modinv_step()` (R161): `phi = 1` gives 1 (R162); a common factor fails (R164). `d < phi`, so it fits. -/
def modinvStep (s : State) : State :=
  let e := s.sa.toNat
  let phi := s.sb.toNat
  if phi = 1 then finish 1 0 s
  else if Nat.gcd (e % phi) phi ≠ 1 then raiseErr errNotCoprime s
  else finish (toWord (inverse e phi)) 0 s

/-- `MODINV` (R160). -/
def execModinv (s : State) : Result := command .modinv id modinvStep s

end Sys2Proof.Machine
end

