-- ==== Sys2Proof/Machine/Modpow.lean ====
section
/-! DEFINITION. The modular-exponentiation engine: `MODPOW` (rules R170 to R174). -/

namespace Sys2Proof.Machine

/-- The loop of R172, at most `fuel` turns, for the modulus `m`: accumulator `acc`, base power `p`, exponent `k`. Every
product is exact (R174). -/
def powLoop (m : Nat) : Nat → Nat → Nat → Nat → Nat
  | 0, acc, _, _        => acc
  | fuel + 1, acc, p, k =>
    if k = 0 then acc
    else powLoop m fuel (if k % 2 = 1 then acc * p % m else acc) (p * p % m) (k / 2)

/-- `base^exponent mod modulus` in R172's reference form: it starts at `1 mod m` (R173), and a 64-bit exponent takes at
most 64 turns. R171 defines the value as `(b^x) mod m` (log 10). -/
def powMod (b x m : Nat) : Nat := powLoop m 64 (1 % m) (b % m) x

/-- `modpow_step()` (R171). The value is below `m`, so it fits. -/
def modpowStep (s : State) : State := finish (toWord (powMod s.sa.toNat s.sb.toNat s.sc.toNat)) 0 s

/-- `MODPOW` (R170). -/
def execModpow (s : State) : Result := command .modpow id modpowStep s

end Sys2Proof.Machine
end

