-- ==== Sys2Proof/Machine/Dispatch.lean ====
section
/-! DEFINITION. The dispatch of rule R183: one arm per command, each one call of its meaning. -/

namespace Sys2Proof.Machine

def exec (i : Instr) (s : State) : Host.Outcome State Fault Refusal :=
  match i with
  | .nop => Sys2Proof.Machine.execNop s
  | .digits => Sys2Proof.Machine.execDigits s
  | .invchk => Sys2Proof.Machine.execInvchk s
  | .visitchk => Sys2Proof.Machine.execVisitchk s
  | .magic => Sys2Proof.Machine.execMagic s
  | .factor => Sys2Proof.Machine.execFactor s
  | .modinv => Sys2Proof.Machine.execModinv s
  | .modpow => Sys2Proof.Machine.execModpow s

end Sys2Proof.Machine
end

