-- ==== Sys2Proof/Machine/Window.lean ====
section
/-! DEFINITION. What each agent's turn does (rule R14): a host access to the window (R71 to R74, R185), the host program's
next statement (R96), the engine's turn (R183, R36) and reset (R230). A turn that belongs to a command (its accept, its
engine step) is handed to `exec`. -/

namespace Sys2Proof.Machine

/-- A host write to `CMD` (R41, R74): dropped with `OVR` while busy (R185); else the word is decoded (R94) and the command
accepted, or the illegal word fails at once (R181, R95). -/
def writeCmd (v : Word) (s : State) : Turn :=
  if s.busy then .finished (.next { s with ovr := true })
  else match decode v with
    | .command i => .command i s
    | .illegal   => .finished (.next (acceptIllegal v s))

/-- `write_reg(off, v)` (R74), by register: `ID`, the results and the rho registers ignore a write. -/
def writeReg (r : Reg) (v : Word) (s : State) : Turn :=
  match r with
  | .id        => .finished (.next s)
  | .ctrl      => .finished (.next (writeCtrl v s))
  | .status    => .finished (.next (writeStatus v s))
  | .cmd       => writeCmd v s
  | .opa       => .finished (.next { s with opa := v })
  | .opb       => .finished (.next { s with opb := v })
  | .opc       => .finished (.next { s with opc := v })
  | .res0      => .finished (.next s)
  | .res1      => .finished (.next s)
  | .iterLimit => .finished (.next { s with iterLimit := v })
  | .iterCount => .finished (.next s)
  | .rhoX      => .finished (.next s)
  | .rhoY      => .finished (.next s)
  | .rhoBatch  => .finished (.next s)

/-- `write_reg(off, v)` (R74): a write to a reserved offset is ignored (R51). -/
def writeOff (off : Nat) (v : Word) (s : State) : Turn :=
  match Reg.ofOff off with
  | some r => writeReg r v s
  | none   => .finished (.next s)

/-- `MemRead` and `MemWrite` (R72): an illegal access gets the error response and changes no state of the block; a legal one
gets a normal response (R74). -/
def access (a : Access) (s : State) : Turn :=
  if a.legal then
    match a with
    | .read off _    => .finished (.next { s with rsp := some (.data (readOff off s)) })
    | .write off _ v => writeOff off v { s with rsp := some .written }
  else .finished (.next { s with rsp := some (.busError a.off a.size) })

/-- The host program's turn (R96): a statement without a transaction, a write, or a read whose value goes to a host
variable. -/
def hostTurn (s : State) : Turn :=
  match s.host.next with
  | .idle          => .finished (.next s)
  | .silent h      => .finished (.next { s with host := h })
  | .write off v h => access (.write off Config.accessBytes v) { s with host := h }
  | .read off t h  => access (.read off Config.accessBytes) { s with host := h.setVar t (readOff off s).toNat }
  | .stuck e       => .finished (.fault (.hostStuck e))

/-- The engine's turn (R183): a step of the command `ENG_OP` names iff `BUSY = 1`; while idle the engine has no step (R36). -/
def engineTurn (s : State) : Turn :=
  if s.busy then
    match Instr.ofOpcode s.engOp with
    | some i => .command i s
    | none   => .finished (.fault .engineOpUndefined)
  else .finished (.next s)

/-- One event (R14). -/
def turnOf (e : Event) (s : State) : Turn :=
  match e with
  | .access a => access a s
  | .host     => hostTurn s
  | .engine   => engineTurn s
  | .reset _  => .finished (.next (resetBlock s))

/-- Whose turn it is: the oldest event's. With none listed the engine moves if it can, which is the fairness of R246, and
else the host program (log 1). -/
def turn (s : State) : Turn :=
  match s.events with
  | []      => if s.busy then engineTurn s else hostTurn s
  | e :: es => turnOf e { s with events := es }

/-- The state in which the next turn is the write of the word `w` (its low `nbits` bits) to `CMD` with no command in flight,
so that the next step accepts exactly that command (log 7). -/
def commandWritten (s : State) (nbits w : Nat) : State :=
  { s with
    busy := false
    events := .access (.write Reg.cmd.off Config.accessBytes (toWord (w % 2 ^ nbits))) :: s.events }

end Sys2Proof.Machine
end

