-- ==== Sys2Proof/Machine/Step.lean ====
section
/-! DEFINITION. One transition of the machine (rule R14), and how a command word is placed where the next transition takes
it. -/

namespace Sys2Proof.Machine

/-- A turn is made: its finished outcome, or the command's next transition. -/
def Turn.run : Turn → Result
  | .finished o  => o
  | .command i s => exec i s

/-- One atomic transition (R14): the turn of whichever agent moves next. -/
def step (s : State) : Host.Outcome State Fault Refusal := (turn s).run

/-- A command arrives as the host's write to `CMD` (R41, R90; log 7). -/
def State.withFetchWord (s : State) (nbits w : Nat) : State := commandWritten s nbits w

end Sys2Proof.Machine
end

