-- ==== Sys2Proof/Safety.lean ====
section
/-! DEFINITION. What holds of every state a run reaches (`Inv`), which stops are the block's own (`BlockStop`), and runs
under a schedule, for the fairness of rule R246. -/

namespace Sys2Proof.Machine

/-- The rho engine's working registers while `FACTOR` is in flight (R44, R146, R147, R144). -/
structure RhoInv (s : State) : Prop where
  /-- R146: `RHO_X` is below `max(n, 3)` -/
  xBound : s.rhoX.toNat < max s.sa.toNat 3
  /-- R146: so is `RHO_Y` -/
  yBound : s.rhoY.toNat < max s.sa.toNat 3
  /-- R147: `RHO_CNT` counts 0 to `RHO_BATCH − 1` between iterations -/
  cntBound : s.rhoCnt.toNat < s.rhoBatch.toNat
  /-- R147: `RHO_BATCH` starts at 2, doubles, and saturates at 2^63 -/
  batchPow : ∃ k, 1 ≤ k ∧ k ≤ 63 ∧ s.rhoBatch.toNat = 2 ^ k
  /-- R142: the command goes on only while the last gcd is 1 -/
  gcdOne : s.rhoD = 1
  /-- R144: at most `SLIM` iterations -/
  limit : s.slim ≠ 0 → s.iterCount.toNat ≤ s.slim.toNat

/-- What holds of the reset state and is kept by every step. -/
structure Inv (s : State) : Prop where
  /-- R181: a command in flight is one of the eight, with its snapshots in its domain -/
  inFlight : s.busy = true → ∃ i : Instr, s.engOp = i.opcode ∧ domainOk i s.sa s.sb s.sc = true
  /-- R39, R181: `LASTOP` names the command in flight -/
  lastop : s.busy = true → s.lastop = s.engOp
  /-- R37: neither `DONE` nor `ERR` is 1 while `BUSY = 1` -/
  quiet : s.busy = true → s.done = false ∧ s.err = false
  /-- R37: at most one of `DONE` and `ERR` is 1 -/
  exclusive : ¬(s.done = true ∧ s.err = true)
  /-- R38: `ERRCODE` is never nonzero while `ERR = 0` -/
  noCode : s.err = false → s.errcode = 0
  /-- R190: an error has one of the codes 1 to 5 -/
  code : s.err = true → 1 ≤ s.errcode.toNat ∧ s.errcode.toNat ≤ 5
  /-- R242: while busy, and after a failure, the results read 0 -/
  results : s.busy = true ∨ s.err = true → s.res0 = 0 ∧ s.res1 = 0
  /-- R146, R147: the rho engine's bounds -/
  rho : s.busy = true → s.engOp = Instr.factor.opcode → RhoInv s
  /-- the host's variables stay in their canonical form -/
  hostVars : s.host.vars.wf = true

/-- A stop of the block itself, as against one of the host program: a run that reaches one is not safe. -/
def BlockStop : Result → Prop
  | .next _                  => False
  | .fault (.hostStuck _)    => False
  | .fault .engineOpUndefined => True
  | .fault .snapshotOutOfDomain => True
  | .refused _               => True

/-- `k` transitions in which the agent that moves at time `j` is `σ j` (R14: any enabled transition may be taken next). -/
def runSchedule (σ : Nat → Event) : Nat → State → Result
  | 0, s     => .next s
  | k + 1, s =>
    match runSchedule σ k s with
    | .next t    => step { t with events := [σ k] }
    | .fault f   => .fault f
    | .refused r => .refused r

/-- The engine alone moves. -/
def engineOnly : Nat → Event := fun _ => .engine

/-- Weak fairness of the engine (R246), over schedules: the engine's turn comes again and again. -/
def Fair (σ : Nat → Event) : Prop := ∀ k, ∃ j, k ≤ j ∧ σ j = .engine

/-- An access that ends the command in flight: a legal write to `CTRL` with bit 2 set (R34, R198). -/
def isAbort : Access → Bool
  | .read _ _        => false
  | .write off sz v  => legal off sz && off == Reg.ctrl.off && v.getLsbD 2

/-- The access the host program's next statement makes (R96). -/
def hostAccess (s : State) : Option Access := s.host.next.transaction

/-- The host access the next step makes, if it makes one (R14, R71; log 1). -/
def accessMade (s : State) : Option Access :=
  match s.events with
  | []             => if s.busy then none else hostAccess s
  | .access a :: _ => some a
  | .host :: _     => hostAccess s
  | .engine :: _   => none
  | .reset _ :: _  => none

/-- The next step is a step of the engine (R14, R183; log 1). -/
def engineMoves (s : State) : Prop := s.busy = true ∧ (s.events = [] ∨ ∃ es, s.events = .engine :: es)

/-- The next step is a reset (R230). -/
def resets (s : State) : Prop := ∃ lost es, s.events = .reset lost :: es

end Sys2Proof.Machine
end

