-- ==== Sys2Proof/Certificates/Slice0/Obligations.lean ====
section
/-! DEFINITION. The statements for the provers. Each is a `def Obligations.<Name> : Prop`; OBLIGATIONS.json gives its rule of
spec/. The namespace `Sys2Proof.Spec` holds what the statements say in the spec's own terms, apart from the model's
functions. -/

namespace Sys2Proof.Spec

open Sys2Proof.Machine

/-- The digit `D[i] = v[4i+3:4i]` of a packed sequence (R13). -/
def digit (v : Word) (i : Nat) : Nat := (v.extractLsb' (4 * i) 4).toNat

/-- `domain_ok`, the table of R182 line by line. -/
def domain (i : Instr) (a b c : Word) : Prop :=
  match i with
  | .nop      => True
  | .digits   => 1 ≤ a.toNat ∧ a.toNat ≤ 10 ^ 16 - 1
  | .invchk   => 1 ≤ b.toNat ∧ b.toNat ≤ 16 ∧ ∀ j < b.toNat, digit a j ≤ 9
  | .visitchk => 1 ≤ b.toNat ∧ b.toNat ≤ 16 ∧ ∀ j < b.toNat, digit a j ≤ 9
  | .magic    => 1 ≤ a.toNat ∧ a.toNat ≤ 10 ^ 16 - 1
  | .factor   => 1 ≤ a.toNat
  | .modinv   => 1 ≤ b.toNat
  | .modpow   => 1 ≤ c.toNat

/-- The end of a command with success: both results, `BUSY`, `DONE` (R184), and nothing else. -/
def completed (r0 r1 : Word) (s : State) : State := { s with res0 := r0, res1 := r1, busy := false, done := true }

/-- The end of a command with a failure: `BUSY`, `ERR`, `ERRCODE` (R193), and nothing else. -/
def failed (code : BitVec 4) (s : State) : State := { s with busy := false, err := true, errcode := code }

/-- What every accept writes first (R181). -/
def cleared (op : BitVec 8) (s : State) : State :=
  { s with lastop := op, done := false, err := false, errcode := 0, res0 := 0, res1 := 0 }

/-- The accept of a legal word in its domain (R181): snapshots, and for `FACTOR` its working registers. -/
def accepted (i : Instr) (s : State) : State :=
  let t := { cleared i.opcode s with engOp := i.opcode, sa := s.opa, sb := s.opb, sc := s.opc, busy := true }
  if i = .factor then
    { t with
      slim := s.iterLimit
      iterCount := 0
      rhoX := 2
      rhoY := 2
      rhoBatch := 2
      rhoCnt := 0
      rhoD := 1 }
  else t

/-- The digits of `n` in L places (R111): `(n div 10^(L-1-i)) mod 10`. -/
def decimalDigit (n len i : Nat) : Nat := n / 10 ^ (len - 1 - i) % 10

/-- A zero digit, or a repeated digit value, among `D[0..L-1]` (R116). -/
def invalid (d : Nat → Nat) (len : Nat) : Prop :=
  (∃ i < len, d i = 0) ∨ ∃ i j, i < j ∧ j < len ∧ d i = d j

/-- The positions of the traversal (R121, R122): `p_0 = 0`, `p_{s+1} = (p_s + D[p_s]) mod L`. -/
def position (d : Nat → Nat) (len : Nat) : Nat → Nat
  | 0     => 0
  | s + 1 => (position d len s + d (position d len s)) % len

/-- The traversal rule (R121): position 0 after exactly `L` steps and after no earlier step. -/
def visits (d : Nat → Nat) (len : Nat) : Prop :=
  position d len len = 0 ∧ ∀ s, 1 ≤ s → s < len → position d len s ≠ 0

/-- `L` is the number of decimal digits of `n` (R111): the least integer with `n < 10^L`. -/
def isDigitCount (n len : Nat) : Prop := n < 10 ^ len ∧ ∀ m, n < 10 ^ m → len ≤ m

/-- What the engine works on and what it writes (R188): the snapshots, the rho registers, the results, `BUSY`, `LASTOP`
and the hidden registers. -/
def engineView (s : State) :
    Bool × BitVec 8 × BitVec 8 × (Word × Word) × (Word × Word × Word × Word) × Word × Word × Word × Word × Word × Word :=
  (s.busy, s.lastop, s.engOp, (s.res0, s.res1), (s.sa, s.sb, s.sc, s.slim), s.iterCount, s.rhoX, s.rhoY, s.rhoBatch,
    s.rhoCnt, s.rhoD)

/-- The state just before the engine's turn. -/
def engineNext (s : State) : State := { s with events := [.engine] }

end Sys2Proof.Spec

open Sys2Proof Sys2Proof.Machine

/-! ## Decoding and the opcode map -/

/-- R94: `decode` on every 64-bit word, and the accept turns its verdict `Illegal` into the failure `ERR_ILLEGAL`. -/
def Obligations.DecodeIsTheOpcodeMap : Prop :=
  (∀ v : Word, decode v =
    if v.toNat = 0x00 then .command .nop
    else if v.toNat = 0x01 then .command .digits
    else if v.toNat = 0x02 then .command .invchk
    else if v.toNat = 0x03 then .command .visitchk
    else if v.toNat = 0x04 then .command .magic
    else if v.toNat = 0x05 then .command .factor
    else if v.toNat = 0x06 then .command .modinv
    else if v.toNat = 0x07 then .command .modpow
    else .illegal) ∧
  ∀ (s : State) (es : List Event) (v : Word), s.events = .access (.write 0x18 8 v) :: es → s.busy = false →
    decode v = .illegal →
      step s = .next (Spec.failed 1 (Spec.cleared (v.extractLsb' 0 8) { s with events := es, rsp := some .written }))

/-- R90, R93: decode of encode is the command, as a word and as the eight byte lanes of the bus (R75); and a word that
decodes to a command is that command's encoding. -/
def Obligations.DecodeEncodeAgree : Prop :=
  (∀ i : Instr, i.wellFormed = true →
    decode (encode i) = .command i ∧ decodeBytes (lanes (encode i)) = .command i) ∧
  ∀ (v : Word) (i : Instr), decode v = .command i → v = encode i

/-- R93: the words of the opcode table, written out. -/
def Obligations.TableWordsDecode : Prop :=
  decodeTableWord 64 0x0000000000000000 = some .nop ∧
  decodeTableWord 64 0x0000000000000001 = some .digits ∧
  decodeTableWord 64 0x0000000000000002 = some .invchk ∧
  decodeTableWord 64 0x0000000000000003 = some .visitchk ∧
  decodeTableWord 64 0x0000000000000004 = some .magic ∧
  decodeTableWord 64 0x0000000000000005 = some .factor ∧
  decodeTableWord 64 0x0000000000000006 = some .modinv ∧
  decodeTableWord 64 0x0000000000000007 = some .modpow ∧
  decodeTableWord 64 0x0000000000000008 = none ∧
  decodeTableWord 64 0x0000000000000100 = none ∧
  decodeTableWord 64 0x8000000000000000 = none

/-! ## A step runs the decoded command -/

/-- R181, R183: the write of a command word to an idle block, and the engine's turn while the block is busy, are the next
transition of the command the word, or `ENG_OP`, decodes to. With no event listed the engine's turn comes by itself
(log 1). The placed word of `withFetchWord` runs at once (log 7). -/
def Obligations.StepRunsTheDecodedCommand : Prop :=
  ∀ (s : State) (es : List Event) (v : Word) (i : Instr),
    (s.events = .access (.write 0x18 8 v) :: es → s.busy = false → decode v = .command i →
      step s = exec i { s with events := es, rsp := some .written }) ∧
    (s.events = .engine :: es → s.busy = true → s.engOp = i.opcode → step s = exec i { s with events := es }) ∧
    (s.events = [] → s.busy = true → s.engOp = i.opcode → step s = exec i s) ∧
    step (s.withFetchWord 64 (encode i).toNat) = exec i { s with busy := false, rsp := some .written }

/-! ## Accept -/

/-- R182: the static check of the operands, command by command. -/
def Obligations.DomainCheckIsTheTable : Prop :=
  ∀ (i : Instr) (a b c : Word), domainOk i a b c = true ↔ Spec.domain i a b c

/-- R181: a write to `CMD` made while `BUSY = 0`. A word that does not decode fails at once with code 1, a domain
violation with code 2, and else the command is in flight. -/
def Obligations.AcceptTransition : Prop :=
  ∀ (s : State) (es : List Event) (v : Word), s.events = .access (.write 0x18 8 v) :: es → s.busy = false →
    let t : State := { s with events := es, rsp := some .written }
    (8 ≤ v.toNat → step s = .next (Spec.failed 1 (Spec.cleared (v.extractLsb' 0 8) t))) ∧
    ∀ i : Instr, v = encode i →
      (¬ Spec.domain i s.opa s.opb s.opc → step s = .next (Spec.failed 2 (Spec.cleared (v.extractLsb' 0 8) t))) ∧
      (Spec.domain i s.opa s.opb s.opc → step s = .next (Spec.accepted i t))

/-- R185: a write to `CMD` made while `BUSY = 1` is dropped and sets `OVR`; nothing else of the block changes. -/
def Obligations.CommandWhileBusyIsDropped : Prop :=
  ∀ (s : State) (es : List Event) (v : Word), s.events = .access (.write 0x18 8 v) :: es → s.busy = true →
    step s = .next { s with events := es, rsp := some .written, ovr := true }

/-- R165: `phi = 0` fails at accept with `ERR_DOMAIN`. -/
def Obligations.ModinvByZeroFailsAtAccept : Prop :=
  ∀ (s : State) (es : List Event), s.events = .access (.write 0x18 8 6) :: es → s.busy = false → s.opb = 0 →
    step s = .next (Spec.failed 2 (Spec.cleared 6 { s with events := es, rsp := some .written }))

/-- R181: the accept initialises the engine's working registers, so that nothing an earlier command left reaches the
command in flight: two idle states with the same operands and limit agree, after the accept, on all `FACTOR` works on,
and for every other command on its snapshots. -/
def Obligations.AcceptForgetsEarlierCommands : Prop :=
  ∀ (i : Instr) (s t s' t' : State), s.busy = false → t.busy = false →
    s.opa = t.opa → s.opb = t.opb → s.opc = t.opc → s.iterLimit = t.iterLimit →
    exec i s = .next s' → exec i t = .next t' →
    s'.busy = t'.busy ∧ s'.done = t'.done ∧ s'.err = t'.err ∧ s'.errcode = t'.errcode ∧ s'.lastop = t'.lastop ∧
    s'.res0 = t'.res0 ∧ s'.res1 = t'.res1 ∧
    (s'.busy = true →
      s'.engOp = t'.engOp ∧ s'.sa = t'.sa ∧ s'.sb = t'.sb ∧ s'.sc = t'.sc ∧
      (i = .factor → Spec.engineView s' = Spec.engineView t'))

/-! ## The commands, one engine step each -/

/-- R180, R184: `NOP` in flight completes in one engine step, and changes nothing but `BUSY` and `DONE`. -/
def Obligations.NopCompletes : Prop :=
  ∀ s : State, s.busy = true → exec .nop s = .next { s with busy := false, done := true }

/-- R111: `DIGITS` in flight writes the packed digits and their count. -/
def Obligations.DigitsWritesTheSequence : Prop :=
  ∀ s : State, s.busy = true → 1 ≤ s.sa.toNat → s.sa.toNat ≤ 10 ^ 16 - 1 →
    ∃ r0 r1 : Word,
      Spec.isDigitCount s.sa.toNat r1.toNat ∧ 1 ≤ r1.toNat ∧ r1.toNat ≤ 16 ∧
      (∀ i < r1.toNat, Spec.digit r0 i = Spec.decimalDigit s.sa.toNat r1.toNat i) ∧
      (∀ i, r1.toNat ≤ i → i < 16 → Spec.digit r0 i = 0) ∧
      exec .digits s = .next (Spec.completed r0 r1 s)

/-- R111, R13: the sequence `DIGITS` writes is the number: Σ D[i]·10^(L-1-i) = n, and its first digit is not 0. -/
def Obligations.DigitsOfANumberGiveItBack : Prop :=
  ∀ s t : State, s.busy = true → exec .digits s = .next t →
    ((List.range t.res1.toNat).map fun i => Spec.digit t.res0 i * 10 ^ (t.res1.toNat - 1 - i)).sum = s.sa.toNat ∧
    Spec.digit t.res0 0 ≠ 0

/-- R116: `INVCHK` in flight answers whether a digit is 0 or repeats. -/
def Obligations.InvchkFindsZeroOrRepeat : Prop :=
  ∀ s : State, s.busy = true → Spec.domain .invchk s.sa s.sb s.sc →
    (Spec.invalid (Spec.digit s.sa) s.sb.toNat → exec .invchk s = .next (Spec.completed 1 0 s)) ∧
    (¬ Spec.invalid (Spec.digit s.sa) s.sb.toNat → exec .invchk s = .next (Spec.completed 0 0 s))

/-- R115: ten or more digits always hold a zero or a repeat. -/
def Obligations.TenDigitsAreInvalid : Prop :=
  ∀ s : State, s.busy = true → Spec.domain .invchk s.sa s.sb s.sc → 10 ≤ s.sb.toNat →
    exec .invchk s = .next (Spec.completed 1 0 s)

/-- R121: `VISITCHK` in flight answers the traversal rule. -/
def Obligations.VisitchkFollowsTheTraversal : Prop :=
  ∀ s : State, s.busy = true → Spec.domain .visitchk s.sa s.sb s.sc →
    (Spec.visits (Spec.digit s.sa) s.sb.toNat → exec .visitchk s = .next (Spec.completed 1 0 s)) ∧
    (¬ Spec.visits (Spec.digit s.sa) s.sb.toNat → exec .visitchk s = .next (Spec.completed 0 0 s))

/-- R122: the result is 1 iff the positions `p_0, …, p_{L-1}` are all distinct and `p_L = 0`. -/
def Obligations.VisitchkIsAFullCycle : Prop :=
  ∀ s t : State, s.busy = true → exec .visitchk s = .next t →
    (t.res0 = 1 ↔
      (∀ i j, i < j → j < s.sb.toNat →
        Spec.position (Spec.digit s.sa) s.sb.toNat i ≠ Spec.position (Spec.digit s.sa) s.sb.toNat j) ∧
      Spec.position (Spec.digit s.sa) s.sb.toNat s.sb.toNat = 0)

/-- R123: a one-digit sequence gives 1, whatever the digit; the integers 1 to 9 are magic. -/
def Obligations.OneDigitVisitsAll : Prop :=
  ∀ s : State, s.busy = true →
    (s.sb = 1 → Spec.digit s.sa 0 ≤ 9 → exec .visitchk s = .next (Spec.completed 1 0 s)) ∧
    (1 ≤ s.sa.toNat → s.sa.toNat ≤ 9 → exec .magic s = .next (Spec.completed 1 0 s))

/-- R126: `MAGIC` in flight: reason 1 for a zero or repeated digit, else 1 with reason 0 or 0 with reason 2 by the
traversal. -/
def Obligations.MagicCombinesBothChecks : Prop :=
  ∀ (s : State) (len : Nat), s.busy = true → 1 ≤ s.sa.toNat → s.sa.toNat ≤ 10 ^ 16 - 1 →
    Spec.isDigitCount s.sa.toNat len →
    let d := Spec.decimalDigit s.sa.toNat len
    (Spec.invalid d len → exec .magic s = .next (Spec.completed 0 1 s)) ∧
    (¬ Spec.invalid d len → Spec.visits d len → exec .magic s = .next (Spec.completed 1 0 s)) ∧
    (¬ Spec.invalid d len → ¬ Spec.visits d len → exec .magic s = .next (Spec.completed 0 2 s))

/-- R112, R126 (V-D15, program P5): `INVCHK` and `VISITCHK` on what `DIGITS` writes give `MAGIC`'s verdict. -/
def Obligations.MagicIsTheDigitPipeline : Prop :=
  ∀ sd si sv sm td ti tv tm : State,
    sd.busy = true → si.busy = true → sv.busy = true → sm.busy = true →
    exec .digits sd = .next td → sm.sa = sd.sa →
    si.sa = td.res0 → si.sb = td.res1 → sv.sa = td.res0 → sv.sb = td.res1 →
    exec .invchk si = .next ti → exec .visitchk sv = .next tv → exec .magic sm = .next tm →
    (tm.res0 = 1 ↔ ti.res0 = 0 ∧ tv.res0 = 1) ∧ (tm.res1 = 1 ↔ ti.res0 = 1)

/-- R142: one engine step of `FACTOR`: at the limit it fails; else it is one rho iteration, in its three cases: the batch goes
on, the batch ends with gcd 1, a factor is found. The statement speaks of every busy state, so it rests on the model's sum
`RHO_CNT + 1` in 64 bits (log 11), and on the gcd with 0 of R11 and R143 (log 9). -/
def Obligations.RhoIterationCases : Prop :=
  ∀ s : State, s.busy = true → 1 ≤ s.sa.toNat →
    (s.slim ≠ 0 ∧ s.iterCount = s.slim → exec .factor s = .next (Spec.failed 4 s)) ∧
    (¬(s.slim ≠ 0 ∧ s.iterCount = s.slim) → ∃ x d : Word,
      x.toNat = (s.rhoX.toNat * s.rhoX.toNat + 1) % s.sa.toNat ∧
      d.toNat = Nat.gcd ((max x.toNat s.rhoY.toNat) - min x.toNat s.rhoY.toNat) s.sa.toNat ∧
      let t : State := { s with rhoX := x, rhoD := d, iterCount := s.iterCount + 1 }
      let b : Word := BitVec.ofNat 64 (min (2 * s.rhoBatch.toNat) (2 ^ 63))
      (d = 1 → s.rhoCnt + 1 ≠ s.rhoBatch → exec .factor s = .next { t with rhoCnt := s.rhoCnt + 1 }) ∧
      (d = 1 → s.rhoCnt + 1 = s.rhoBatch →
        exec .factor s = .next { t with rhoCnt := 0, rhoY := x, rhoBatch := b }) ∧
      (d ≠ 1 → exec .factor s = .next (Spec.completed d (BitVec.ofNat 64 (s.sa.toNat / d.toNat))
        { t with rhoCnt := 0, rhoY := x, rhoBatch := b })))

/-- R144: once `SLIM` iterations are made, the next engine step fails with `ERR_LIMIT`, and nothing else changes. -/
def Obligations.FactorStopsAtTheLimit : Prop :=
  ∀ s : State, s.busy = true → 1 ≤ s.sa.toNat → s.slim ≠ 0 → s.iterCount = s.slim →
    exec .factor s = .next (Spec.failed 4 s)

/-- R149: at completion `d ≥ 2` divides `n`, and `RES0 · RES1 = n` with `RES1 ≥ 1`; for a product of two distinct primes `d`
is one of them or the product. -/
def Obligations.FactorResultDivides : Prop :=
  ∀ s t : State, s.busy = true → s.done = false → exec .factor s = .next t → t.done = true →
    2 ≤ t.res0.toNat ∧ t.res0.toNat ∣ s.sa.toNat ∧ t.res0.toNat * t.res1.toNat = s.sa.toNat ∧ 1 ≤ t.res1.toNat ∧
    ∀ p q : Nat, p.Prime → q.Prime → p ≠ q → s.sa.toNat = p * q → t.res0.toNat ∈ [p, q, p * q]

/-- R148: `FACTOR 1` without a limit never completes: after any number of engine steps it is still busy, its count is the
number of steps, and `RHO_X` is 0 after the first. -/
def Obligations.FactorOneNeverEnds : Prop :=
  ∀ s : State, s.busy = true → s.engOp = Instr.factor.opcode → s.sa = 1 → s.slim = 0 → ∀ k : Nat,
    ∃ t : State, runSchedule engineOnly k s = .next t ∧ t.busy = true ∧ t.done = s.done ∧ t.err = s.err ∧
      t.iterCount = s.iterCount + BitVec.ofNat 64 k ∧ (1 ≤ k → t.rhoX = 0)

/-- R148: for every `n ≥ 2`, `FACTOR` with no limit completes after finitely many iterations. -/
def Obligations.FactorEndsForEveryNumberFromTwo : Prop :=
  ∀ s : State, Inv s → s.busy = true → s.engOp = Instr.factor.opcode → 2 ≤ s.sa.toNat → s.slim = 0 →
    ∃ (k : Nat) (t : State), runSchedule engineOnly k s = .next t ∧ t.busy = false ∧ t.done = true ∧
      2 ≤ t.res0.toNat ∧ t.res0.toNat * t.res1.toNat = s.sa.toNat

/-- R144: with a limit, `FACTOR` in flight ends within as many engine steps as iterations are left, and one more. -/
def Obligations.FactorEndsWithinItsLimit : Prop :=
  ∀ s : State, Inv s → s.busy = true → s.engOp = Instr.factor.opcode → s.slim ≠ 0 →
    ∃ (k : Nat) (t : State), k ≤ s.slim.toNat - s.iterCount.toNat + 1 ∧
      runSchedule engineOnly k s = .next t ∧ t.busy = false ∧ t.iterCount.toNat ≤ s.slim.toNat

/-- R161: `MODINV` in flight with `phi ≥ 2` and `gcd(e, phi) = 1` writes the unique `d` with `1 ≤ d ≤ phi − 1` and
`(e·d) mod phi = 1`; with a common factor it fails with code 3; with `phi = 1` it writes 1. -/
def Obligations.ModinvWritesTheInverse : Prop :=
  ∀ s : State, s.busy = true →
    (s.sb.toNat = 1 → exec .modinv s = .next (Spec.completed 1 0 s)) ∧
    (2 ≤ s.sb.toNat → Nat.gcd (s.sa.toNat % s.sb.toNat) s.sb.toNat ≠ 1 →
      exec .modinv s = .next (Spec.failed 3 s)) ∧
    (2 ≤ s.sb.toNat → Nat.gcd (s.sa.toNat % s.sb.toNat) s.sb.toNat = 1 →
      ∃ d : Word, 1 ≤ d.toNat ∧ d.toNat ≤ s.sb.toNat - 1 ∧ s.sa.toNat * d.toNat % s.sb.toNat = 1 ∧
        (∀ d' : Nat, 1 ≤ d' → d' ≤ s.sb.toNat - 1 → s.sa.toNat * d' % s.sb.toNat = 1 → d' = d.toNat) ∧
        exec .modinv s = .next (Spec.completed d 0 s))

/-- R171: `MODPOW` in flight writes `(b^x) mod m`, exactly. -/
def Obligations.ModpowWritesThePower : Prop :=
  ∀ s : State, s.busy = true → 1 ≤ s.sc.toNat →
    ∃ r : Word, r.toNat = s.sa.toNat ^ s.sb.toNat % s.sc.toNat ∧ exec .modpow s = .next (Spec.completed r 0 s)

/-- R173: `mod_pow(base, 0, m) = 1` for `m > 1`, and `mod_pow(base, e, 1) = 0`. -/
def Obligations.ModpowEdgeCases : Prop :=
  ∀ s : State, s.busy = true →
    (s.sb = 0 → 2 ≤ s.sc.toNat → exec .modpow s = .next (Spec.completed 1 0 s)) ∧
    (s.sc = 1 → exec .modpow s = .next (Spec.completed 0 0 s))

/-- R166: the round trip: encrypt with `e`, derive `d` from the totient, decrypt, and the message is back. -/
def Obligations.RsaRoundTrip : Prop :=
  ∀ (p q : Nat) (s1 s2 s3 t1 t2 t3 : State), p.Prime → q.Prime → p ≠ q → p * q < 2 ^ 64 →
    s1.busy = true → s2.busy = true → s3.busy = true →
    s1.sc.toNat = p * q → s1.sa.toNat < p * q →
    s2.sa = s1.sb → s2.sb.toNat = (p - 1) * (q - 1) → Nat.Coprime s2.sa.toNat s2.sb.toNat →
    exec .modpow s1 = .next t1 → exec .modinv s2 = .next t2 →
    s3.sa = t1.res0 → s3.sb = t2.res0 → s3.sc = s1.sc → exec .modpow s3 = .next t3 →
    t3.res0 = s1.sa

/-! ## What commands leave alone -/

/-- R32, R34, R39, R45: no command writes an operand register, `ITER_LIMIT`, an interrupt enable or `OVR`; a command makes
no access and moves no other agent, whose fields are the model's own (log 1, log 2, log 5). -/
def Obligations.CommandsKeepHostRegisters : Prop :=
  ∀ (i : Instr) (s t : State), exec i s = .next t →
    t.opa = s.opa ∧ t.opb = s.opb ∧ t.opc = s.opc ∧ t.iterLimit = s.iterLimit ∧ t.ieDone = s.ieDone ∧
    t.ieErr = s.ieErr ∧ t.ovr = s.ovr ∧ t.events = s.events ∧ t.rsp = s.rsp ∧ t.host = s.host

/-- R44, R46: only `FACTOR` writes `RHO_X`, `RHO_Y`, `RHO_BATCH` and `ITER_COUNT`, and with them the hidden `SLIM`,
`RHO_CNT`, `RHO_D`. -/
def Obligations.OnlyFactorWritesRhoState : Prop :=
  ∀ (i : Instr) (s t : State), i ≠ .factor → exec i s = .next t →
    t.rhoX = s.rhoX ∧ t.rhoY = s.rhoY ∧ t.rhoBatch = s.rhoBatch ∧ t.iterCount = s.iterCount ∧
    t.slim = s.slim ∧ t.rhoCnt = s.rhoCnt ∧ t.rhoD = s.rhoD

/-- R47, R188: an engine step leaves the operand registers, `ITER_LIMIT`, the enables, `OVR`, the snapshots, `ENG_OP` and
`LASTOP` as they are, and sets exactly one of `DONE` and `ERR` if it ends the command; while it does not end the command it
changes only the rho registers, visible and hidden. -/
def Obligations.EngineStepFrame : Prop :=
  ∀ (i : Instr) (s t : State), s.busy = true → s.done = false → s.err = false → exec i s = .next t →
    t.opa = s.opa ∧ t.opb = s.opb ∧ t.opc = s.opc ∧ t.iterLimit = s.iterLimit ∧ t.ieDone = s.ieDone ∧
    t.ieErr = s.ieErr ∧ t.ovr = s.ovr ∧
    t.sa = s.sa ∧ t.sb = s.sb ∧ t.sc = s.sc ∧ t.slim = s.slim ∧ t.engOp = s.engOp ∧ t.lastop = s.lastop ∧
    (t.busy = true → t.done = false ∧ t.err = false ∧ t.errcode = s.errcode ∧ t.res0 = s.res0 ∧ t.res1 = s.res1 ∧
      t = { s with rhoX := t.rhoX, rhoY := t.rhoY, rhoBatch := t.rhoBatch, iterCount := t.iterCount,
                   rhoCnt := t.rhoCnt, rhoD := t.rhoD }) ∧
    (t.busy = false → t.done = !t.err)

/-! ## Host accesses -/

/-- R73: a legal read changes nothing, and answers the register's value; `CMD` and every reserved offset read 0. -/
def Obligations.ReadsReturnRegistersWithoutEffect : Prop :=
  ∀ (s : State) (es : List Event) (off : Nat), s.events = .access (.read off 8) :: es → legal off 8 = true →
    ∃ v : Word, step s = .next { s with events := es, rsp := some (.data v) } ∧
      (off = 0x00 → v = 0x5052483102100001) ∧
      (off = 0x08 → v.getLsbD 0 = s.ieDone ∧ v.getLsbD 1 = s.ieErr ∧ ∀ i, 2 ≤ i → v.getLsbD i = false) ∧
      (off = 0x10 → v = statusWord s) ∧
      (off = 0x18 → v = 0) ∧
      (off = 0x20 → v = s.opa) ∧ (off = 0x28 → v = s.opb) ∧ (off = 0x30 → v = s.opc) ∧
      (off = 0x38 → v = s.res0) ∧ (off = 0x40 → v = s.res1) ∧
      (off = 0x48 → v = s.iterLimit) ∧ (off = 0x50 → v = s.iterCount) ∧
      (off = 0x58 → v = s.rhoX) ∧ (off = 0x60 → v = s.rhoY) ∧ (off = 0x68 → v = s.rhoBatch) ∧
      (0x70 ≤ off → v = 0)

/-- R35: the fields of `STATUS` as read; reserved bits read 0. -/
def Obligations.StatusWordFields : Prop :=
  ∀ s : State,
    (statusWord s).getLsbD 0 = s.busy ∧ (statusWord s).getLsbD 1 = s.done ∧ (statusWord s).getLsbD 2 = s.err ∧
    (statusWord s).getLsbD 3 = s.ovr ∧ (statusWord s).extractLsb' 4 4 = 0 ∧
    (statusWord s).extractLsb' 8 4 = s.errcode ∧ (statusWord s).extractLsb' 12 4 = 0 ∧
    (statusWord s).extractLsb' 16 8 = s.lastop ∧ (statusWord s).extractLsb' 24 40 = 0

/-- R35: a write to `STATUS` clears the bits it names with a 1, `ERRCODE` with `ERR`, and nothing else. -/
def Obligations.StatusWriteOneToClear : Prop :=
  ∀ (s : State) (es : List Event) (v : Word), s.events = .access (.write 0x10 8 v) :: es →
    ∃ t : State, step s = .next t ∧
      (v.getLsbD 1 = true → t.done = false) ∧ (v.getLsbD 1 = false → t.done = s.done) ∧
      (v.getLsbD 2 = true → t.err = false ∧ t.errcode = 0) ∧
      (v.getLsbD 2 = false → t.err = s.err ∧ t.errcode = s.errcode) ∧
      (v.getLsbD 3 = true → t.ovr = false) ∧ (v.getLsbD 3 = false → t.ovr = s.ovr) ∧
      { t with done := s.done, err := s.err, errcode := s.errcode, ovr := s.ovr } =
        { s with events := es, rsp := some .written }

/-- R34, R198: a write to `CTRL` stores both enables first; with bit 2 set while busy it then fails the command in flight
with code 5, and while idle, or with bit 2 clear, it does nothing else. -/
def Obligations.CtrlWriteStoresThenAborts : Prop :=
  ∀ (s : State) (es : List Event) (v : Word), s.events = .access (.write 0x08 8 v) :: es →
    let t : State := { s with events := es, rsp := some .written, ieDone := v.getLsbD 0, ieErr := v.getLsbD 1 }
    (v.getLsbD 2 = true → s.busy = true → step s = .next (Spec.failed 5 t)) ∧
    (s.busy = false → step s = .next t) ∧
    (v.getLsbD 2 = false → step s = .next t)

/-- R74: the operand registers and `ITER_LIMIT` are written at any time; the read-only registers ignore a write, with a
normal response. -/
def Obligations.RegisterWrites : Prop :=
  ∀ (s : State) (es : List Event) (off : Nat) (v : Word), s.events = .access (.write off 8 v) :: es →
    let t : State := { s with events := es, rsp := some .written }
    (off = 0x20 → step s = .next { t with opa := v }) ∧
    (off = 0x28 → step s = .next { t with opb := v }) ∧
    (off = 0x30 → step s = .next { t with opc := v }) ∧
    (off = 0x48 → step s = .next { t with iterLimit := v }) ∧
    (off ∈ [0x00, 0x38, 0x40, 0x50, 0x58, 0x60, 0x68] → step s = .next t)

/-- R51: reserved offsets and the reserved fields of `CTRL` and `STATUS` read as 0, and writes to them are ignored. -/
def Obligations.ReservedReadZeroIgnoreWrites : Prop :=
  (∀ (s : State) (es : List Event) (off : Nat), off % 8 = 0 → 0x70 ≤ off → off ≤ 0xF8 →
    (s.events = .access (.read off 8) :: es → step s = .next { s with events := es, rsp := some (.data 0) }) ∧
    ∀ v : Word, s.events = .access (.write off 8 v) :: es →
      step s = .next { s with events := es, rsp := some .written }) ∧
  (∀ (s : State) (i : Nat), 3 ≤ i → (readReg .ctrl s).getLsbD i = false) ∧
  (∀ (s : State) (i : Nat), (4 ≤ i ∧ i ≤ 7) ∨ (12 ≤ i ∧ i ≤ 15) ∨ 24 ≤ i → (readReg .status s).getLsbD i = false) ∧
  (∀ (s s' : State) (es : List Event) (v w : Word),
    s.events = .access (.write 0x08 8 v) :: es → s' = { s with events := .access (.write 0x08 8 w) :: es } →
    (∀ i < 3, v.getLsbD i = w.getLsbD i) → step s = step s') ∧
  (∀ (s s' : State) (es : List Event) (v w : Word),
    s.events = .access (.write 0x10 8 v) :: es → s' = { s with events := .access (.write 0x10 8 w) :: es } →
    (∀ i ∈ [1, 2, 3], v.getLsbD i = w.getLsbD i) → step s = step s')

/-- R72: an access that is not 8 bytes wide, not aligned to 8, or outside the window gets the error response and changes
no state of the block, and a read then returns 0; every other access is legal. -/
def Obligations.IllegalAccessIsABusError : Prop :=
  (∀ off size : Nat, legal off size = true ↔ size = 8 ∧ off % 8 = 0 ∧ off ≤ 0xF8) ∧
  ∀ (s : State) (es : List Event) (a : Access), s.events = .access a :: es → legal a.off a.size = false →
    step s = .next { s with events := es, rsp := some (.busError a.off a.size) } ∧
    ∀ off size : Nat, a = .read off size → (Response.busError off size).rdata = some 0

/-- R31: `ID` is a constant with its four fields, and a write to it is ignored. -/
def Obligations.IdentityRegister : Prop :=
  (∀ s : State, (readReg .id s).extractLsb' 32 32 = 0x50524831#32 ∧ (readReg .id s).extractLsb' 24 8 = 0x02#8 ∧
    (readReg .id s).extractLsb' 16 8 = 0x10#8 ∧ (readReg .id s).extractLsb' 0 16 = 0x0001#16) ∧
  ∀ (s : State) (es : List Event) (v : Word), s.events = .access (.write 0x00 8 v) :: es →
    step s = .next { s with events := es, rsp := some .written }

/-- R42, R84: a host access other than an abort leaves the command in flight, its snapshots and the rho registers as they
are. -/
def Obligations.AccessesKeepTheCommandInFlight : Prop :=
  ∀ (s : State) (es : List Event) (a : Access), s.events = .access a :: es → s.busy = true → isAbort a = false →
    ∃ t : State, step s = .next t ∧ t.events = es ∧ Spec.engineView t = Spec.engineView s

/-- R186: what the engine's next step computes does not depend on the host accesses made before it, abort apart: after any
list of them the step leaves the same results, rho registers, `BUSY`, `DONE`, `ERR` and `ERRCODE`. -/
def Obligations.ResultIndependentOfAccesses : Prop :=
  ∀ (s t : State) (as : List Access), Inv s → s.busy = true → (∀ a ∈ as, isAbort a = false) →
    step (Spec.engineNext s) = .next t →
    ∃ t' : State, Sys2Proof.core.run (as.length + 1) { s with events := as.map Event.access ++ [.engine] } = .next t' ∧
      Spec.engineView t' = Spec.engineView t ∧ t'.done = t.done ∧ t'.err = t.err ∧ t'.errcode = t.errcode

/-- R232: an abort and a clear leave a clean block: idle, no flag, no code; operands, limit and rho registers stay. -/
def Obligations.SoftwareCleanSequence : Prop :=
  ∀ (s : State) (es : List Event),
    s.events = .access (.write 0x08 8 4) :: .access (.write 0x10 8 0xE) :: es →
    ∃ t : State, Sys2Proof.core.run 2 s = .next t ∧ t.events = es ∧
      t.busy = false ∧ t.done = false ∧ t.err = false ∧ t.ovr = false ∧ t.errcode = 0 ∧
      t.opa = s.opa ∧ t.opb = s.opb ∧ t.opc = s.opc ∧ t.iterLimit = s.iterLimit ∧ t.iterCount = s.iterCount ∧
      t.rhoX = s.rhoX ∧ t.rhoY = s.rhoY ∧ t.rhoBatch = s.rhoBatch

/-- R75: the eight byte lanes, lane 0 the least significant, are the register. -/
def Obligations.ByteLanesAreLittleEndian : Prop :=
  ∀ v : Word, ofLanes (lanes v) = v.toNat ∧ (lanes v).length = 8 ∧
    ∀ k < 8, ∀ j < 8, (lane k v).getLsbD j = v.getLsbD (8 * k + j)

/-! ## Interrupt and reset -/

/-- R48: `irq` from the bits the host reads, and 0 after reset. -/
def Obligations.InterruptLevel : Prop :=
  (∀ s : State, irq s = (((statusWord s).getLsbD 1 && (ctrlWord s).getLsbD 0) ||
    ((statusWord s).getLsbD 2 && (ctrlWord s).getLsbD 1))) ∧
  irq State.reset = false

/-- R199, R195: from a state with the invariant, an accept that passes its checks drops `irq`, whatever was pending, and
the end of a command raises it iff the enable of its kind is set. -/
def Obligations.InterruptFollowsTheCommand : Prop :=
  ∀ (i : Instr) (s t : State), Inv s → exec i s = .next t →
    (t.busy = true → irq t = false) ∧
    (t.busy = false → irq t = if t.err then s.ieErr else s.ieDone)

/-- R230: reset, at any time, sets every register of the block to its reset value; the access made in the same cycle no effect. That the events left, the last response and the host stay is the model's choice (log 5, log 14). -/
def Obligations.ResetTransition : Prop :=
  ∀ (s : State) (es : List Event) (lost : Option Access), s.events = .reset lost :: es →
    step s = .next { State.reset with events := es, rsp := s.rsp, host := s.host }

/-- R50: after reset `ID` reads its constant and every other offset of the window reads 0; `irq` is 0; the engine is
idle and every hidden register is 0. -/
def Obligations.ResetStateReadsZero : Prop :=
  readOff 0x00 State.reset = 0x5052483102100001 ∧
  (∀ off, off ≠ 0 → readOff off State.reset = 0) ∧
  irq State.reset = false ∧ State.reset.busy = false ∧ State.reset.engOp = 0 ∧ State.reset.sa = 0 ∧
  State.reset.sb = 0 ∧ State.reset.sc = 0 ∧ State.reset.slim = 0 ∧ State.reset.rhoCnt = 0 ∧ State.reset.rhoD = 0

/-! ## The whole machine -/

/-- The reset state has the invariant. -/
def Obligations.ResetHasInvariant : Prop := Inv State.reset

/-- R37, R38, R39, R146, R147, R181, R190, R242: every step keeps the invariant: whoever moves, `DONE` and `ERR` exclude
each other and `BUSY`, the code goes with `ERR`, failed and busy commands show no result, the command in flight is legal
with its snapshots in its domain, and the rho registers stay in their bounds. -/
def Obligations.EveryStepKeepsTheInvariant : Prop :=
  ∀ s t : State, Inv s → step s = .next t → Inv t

/-- R10, R183, R197: from a state with the invariant the block never stops by itself: no engine step lacks an arm or meets
an operand outside its domain, and no command is refused. Only a host program can get stuck, which is the model's
choice (log 2). -/
def Obligations.BlockNeverStops : Prop :=
  ∀ s : State, Inv s → ¬ BlockStop (step s)

/-- R183: every command but `FACTOR` ends in its first engine step. -/
def Obligations.OneEngineStepEndsEveryOtherCommand : Prop :=
  ∀ s : State, Inv s → s.busy = true → s.engOp ≠ Instr.factor.opcode →
    ∃ t : State, step (Spec.engineNext s) = .next t ∧ t.busy = false ∧ t.done = !t.err

/-- R246: under every schedule of accesses, engine turns and resets in which the engine's turn comes again and again, every
command in flight ends, `FACTOR` on 1 without a limit apart. -/
def Obligations.FairSchedulesEndEveryCommand : Prop :=
  ∀ (σ : Nat → Event) (s : State), Fair σ → (∀ k, σ k ≠ .host) → Inv s → s.busy = true →
    (s.engOp = Instr.factor.opcode → s.sa ≠ 1 ∨ s.slim ≠ 0) →
    ∃ (k : Nat) (t : State), runSchedule σ k s = .next t ∧ t.busy = false

/-! ## What changes what: every step of every agent -/

/-- R36: `BUSY` rises only at the write of a command word whose operands are in its domain, made while idle; it falls only
at a step of the engine, at an abort, or at reset. Which step is an access, the engine's or a reset is the model's list of
events (log 1). -/
def Obligations.BusyChangesOnlyAs : Prop :=
  ∀ s t : State, step s = .next t →
    (s.busy = false → t.busy = true →
      ∃ i : Instr, accessMade s = some (.write 0x18 8 (encode i)) ∧ Spec.domain i s.opa s.opb s.opc) ∧
    (s.busy = true → t.busy = false →
      engineMoves s ∨ resets s ∨ ∃ v : Word, accessMade s = some (.write 0x08 8 v) ∧ v.getLsbD 2 = true)

/-- R37, R38: `DONE` is set only by a step of the engine that ends the command. `ERR` is set only by such a step, by an
accept that fails, or by an abort. Both are cleared only by an accept, by a write of 1 to their bit, or by reset (log 1). -/
def Obligations.DoneAndErrChangeOnlyAs : Prop :=
  ∀ s t : State, step s = .next t →
    (s.done = false → t.done = true → engineMoves s ∧ t.busy = false) ∧
    (s.err = false → t.err = true → t.busy = false ∧ t.errcode ≠ 0 ∧
      (engineMoves s ∨ (s.busy = false ∧ ∃ v : Word, accessMade s = some (.write 0x18 8 v)) ∨
        (s.busy = true ∧ ∃ v : Word, accessMade s = some (.write 0x08 8 v) ∧ v.getLsbD 2 = true))) ∧
    (s.done = true → t.done = false →
      resets s ∨ (s.busy = false ∧ ∃ v : Word, accessMade s = some (.write 0x18 8 v)) ∨
        ∃ v : Word, accessMade s = some (.write 0x10 8 v) ∧ v.getLsbD 1 = true) ∧
    (s.err = true → t.err = false → t.errcode = 0 ∧
      (resets s ∨ (s.busy = false ∧ ∃ v : Word, accessMade s = some (.write 0x18 8 v)) ∨
        ∃ v : Word, accessMade s = some (.write 0x10 8 v) ∧ v.getLsbD 2 = true))

/-- R39: `OVR` is set only by a write to `CMD` made while busy, and cleared only by a write of 1 to bit 3 or by reset.
`LASTOP` changes only at a write to `CMD` made while idle, to the low byte of the word, or at reset (log 1). -/
def Obligations.OvrAndLastopChangeOnlyAs : Prop :=
  ∀ s t : State, step s = .next t →
    (s.ovr = false → t.ovr = true → s.busy = true ∧ ∃ v : Word, accessMade s = some (.write 0x18 8 v)) ∧
    (s.ovr = true → t.ovr = false →
      resets s ∨ ∃ v : Word, accessMade s = some (.write 0x10 8 v) ∧ v.getLsbD 3 = true) ∧
    (t.lastop ≠ s.lastop → (resets s ∧ t.lastop = 0) ∨
      (s.busy = false ∧ ∃ v : Word, accessMade s = some (.write 0x18 8 v) ∧ t.lastop = v.extractLsb' 0 8))

/-- R34, R42, R45: an operand register, `ITER_LIMIT` or an interrupt enable changes only at the host's write to it, to the
value written, or at reset (log 1). -/
def Obligations.HostRegistersChangeOnlyByTheirWrites : Prop :=
  ∀ s t : State, step s = .next t → ¬ resets s →
    (t.opa ≠ s.opa → accessMade s = some (.write 0x20 8 t.opa)) ∧
    (t.opb ≠ s.opb → accessMade s = some (.write 0x28 8 t.opb)) ∧
    (t.opc ≠ s.opc → accessMade s = some (.write 0x30 8 t.opc)) ∧
    (t.iterLimit ≠ s.iterLimit → accessMade s = some (.write 0x48 8 t.iterLimit)) ∧
    (t.ieDone ≠ s.ieDone → ∃ v : Word, accessMade s = some (.write 0x08 8 v) ∧ t.ieDone = v.getLsbD 0) ∧
    (t.ieErr ≠ s.ieErr → ∃ v : Word, accessMade s = some (.write 0x08 8 v) ∧ t.ieErr = v.getLsbD 1)

/-- R43, R44, R46: the results change only at an accept, to 0, or at a step of the engine that completes the command;
`RHO_X`, `RHO_Y`, `RHO_BATCH` and `ITER_COUNT` change only at the accept of `FACTOR` or at a step of the engine while
`FACTOR` is in flight. Reset apart (log 1). -/
def Obligations.ResultsAndRhoChangeOnlyAs : Prop :=
  ∀ s t : State, step s = .next t → ¬ resets s →
    (t.res0 ≠ s.res0 ∨ t.res1 ≠ s.res1 →
      (s.busy = false ∧ (∃ v : Word, accessMade s = some (.write 0x18 8 v)) ∧ t.res0 = 0 ∧ t.res1 = 0) ∨
      (engineMoves s ∧ t.busy = false ∧ t.done = true)) ∧
    (t.rhoX ≠ s.rhoX ∨ t.rhoY ≠ s.rhoY ∨ t.rhoBatch ≠ s.rhoBatch ∨ t.iterCount ≠ s.iterCount →
      (s.busy = false ∧ accessMade s = some (.write 0x18 8 (encode .factor))) ∨
      (engineMoves s ∧ s.engOp = Instr.factor.opcode))

/-! ## The host program -/

/-- R96, R98: at the host program's turn, statement by statement: `WR` is a write of all 8 bytes at the register's offset;
`RD` is a read whose value goes to the host's variable and changes no register of the block; `t <- expr`, `GOTO`, `IF`, a
label and `HALT` move the host alone. Beside each, the program's encoding: the one transaction of a `WR` or an `RD`, in
front of those of the statements that follow, and none of another statement. That the host program stands in the state as
an agent is the model's choice (log 2), and so are what ends an encoding and which label a `GOTO` finds (log 24, 21). -/
def Obligations.HostStatementsAreAccesses : Prop :=
  ∀ (s : State) (es : List Event) (h : HostState), s.events = .host :: es → s.host = h → h.halted = false →
    let past : HostState := { h with pos := h.pos + 1 }
    let silent (k : HostState) : Prop := step s = .next { s with events := es, host := k } ∧
      ∀ (n : Nat) (vals : List Word), h.transactions (n + 1) vals = k.transactions n vals
    (∀ (r : Reg) (e : Expr) (x : Int), h.prog[h.pos]? = some (.wr r e) → e.eval h.vars = some x → 0 ≤ x → x < 2 ^ 64 →
      step s = step { s with events := .access (.write r.off 8 (BitVec.ofInt 64 x)) :: es, host := past } ∧
      ∀ (n : Nat) (vals : List Word),
        h.transactions (n + 1) vals = .write r.off 8 (BitVec.ofInt 64 x) :: past.transactions n vals) ∧
    (∀ (r : Reg) (t : Nat), h.prog[h.pos]? = some (.rd t r) →
      ∃ k : HostState, k = { past with vars := h.vars.put t (readReg r s).toNat } ∧
        Vars.get k.vars t = some ((readReg r s).toNat : Int) ∧
        step s = .next { s with events := es, rsp := some (.data (readReg r s)), host := k } ∧
        ∀ (n : Nat) (vals : List Word),
          h.transactions (n + 1) (readReg r s :: vals) = .read r.off 8 :: k.transactions n vals) ∧
    (∀ (t : Nat) (e : Expr) (x : Int), h.prog[h.pos]? = some (.set t e) → e.eval h.vars = some x →
      silent { past with vars := h.vars.put t x }) ∧
    (∀ l p : Nat, h.prog.findIdx? (· == .label l) = some p →
      (h.prog[h.pos]? = some (.goto l) → silent { h with pos := p }) ∧
      ∀ c : Cond, h.prog[h.pos]? = some (.ifGoto c l) → c.eval h.vars = some true → silent { h with pos := p }) ∧
    (∀ (c : Cond) (l : Nat), h.prog[h.pos]? = some (.ifGoto c l) → c.eval h.vars = some false → silent past) ∧
    (∀ l : Nat, h.prog[h.pos]? = some (.label l) → silent past) ∧
    (h.prog[h.pos]? = some .halt → silent { h with halted := true } ∧
      ∀ (n : Nat) (vals : List Word), h.transactions n vals = [])

/-- R97, R98: the pseudo-instructions: a command's, on operands whose values are words, encodes as its operand writes in
order and then the `CMD` write with the command's word; `CLR` and `ABORT` are one write each; `WAIT` is the polling loop,
which reads `STATUS` until bit 0 of what it read is 0, and no more. In each case the statements run are enough for the
whole. The form of an encoding is the model's choice (log 24), and so is an `ie` of `ABORT` that the host computes, on
which R97 is silent (log 23). -/
def Obligations.PseudoInstructionsEncode : Prop :=
  ∀ (vs : Vars) (x y z : Expr) (a b c : Word),
    x.eval vs = some (a.toNat : Int) → y.eval vs = some (b.toNat : Int) → z.eval vs = some (c.toNat : Int) →
    let cmd (i : Instr) : Access := .write 0x18 8 (encode i)
    let enc (k : Nat) (prog : List Stmt) (l : List Access) : Prop :=
      ∀ (n : Nat) (vals : List Word), k ≤ n → encodeProgram n vals vs prog = l
    enc 1 (Pseudo.expand .nop) [cmd .nop] ∧
    enc 2 (Pseudo.digits x).expand [.write 0x20 8 a, cmd .digits] ∧
    enc 3 (Pseudo.invchk x y).expand [.write 0x20 8 a, .write 0x28 8 b, cmd .invchk] ∧
    enc 3 (Pseudo.visitchk x y).expand [.write 0x20 8 a, .write 0x28 8 b, cmd .visitchk] ∧
    enc 2 (Pseudo.magic x).expand [.write 0x20 8 a, cmd .magic] ∧
    enc 2 (Pseudo.factor x).expand [.write 0x20 8 a, cmd .factor] ∧
    enc 3 (Pseudo.modinv x y).expand [.write 0x20 8 a, .write 0x28 8 b, cmd .modinv] ∧
    enc 4 (Pseudo.modpow x y z).expand [.write 0x20 8 a, .write 0x28 8 b, .write 0x30 8 c, cmd .modpow] ∧
    enc 1 (Pseudo.expand .clr) [.write 0x10 8 0xE] ∧
    (∀ (ie : Expr) (v : BitVec 2), ie.eval vs = some (v.toNat : Int) →
      enc 1 (Pseudo.abort ie).expand [.write 0x08 8 (BitVec.ofNat 64 (v.toNat + 4))]) ∧
    ∀ t l : Nat, (Pseudo.wait t l).expand = [.label l, .rd t .status, .ifGoto (.eq (.bit (.var t) 0) (.num 1)) l] ∧
      ∀ (polls rest : List Word) (v : Word) (n : Nat), (∀ w ∈ polls, w.getLsbD 0 = true) → v.getLsbD 0 = false →
        3 * polls.length + 3 ≤ n →
        encodeProgram n (polls ++ v :: rest) vs (Pseudo.wait t l).expand =
          List.replicate (polls.length + 1) (.read 0x10 8)
end

