-- ==== Sys2Proof/Laws/Bus.lean ====
section
/-! SUPPORT. The window's register map, legal accesses, byte lanes, the encoding, and the host's variables. -/

namespace Sys2Proof

theorem Instr.ofOpcode_opcode (i : Instr) : Instr.ofOpcode i.opcode = some i := by cases i <;> rfl

theorem Instr.opcode_injective {i j : Instr} (h : i.opcode = j.opcode) : i = j := by
  have := Instr.ofOpcode_opcode i
  rw [h, Instr.ofOpcode_opcode] at this
  exact (Option.some.inj this).symm

theorem decode_encode (i : Instr) : decode (encode i) = .command i := by cases i <;> rfl

theorem opcodeField_encode (i : Instr) : opcodeField (encode i) = i.opcode := by cases i <;> rfl

/-- A word with `RSVD` = 0 is its opcode byte. -/
theorem toNat_of_rsvd_zero {v : Word} (h : rsvdField v = 0) : v.toNat = (opcodeField v).toNat := by
  have h' := congrArg BitVec.toNat h
  simp only [rsvdField, opcodeField, BitVec.extractLsb'_toNat, Nat.shiftRight_eq_div_pow] at h' ⊢
  have := v.isLt
  simp at h' ⊢
  omega

theorem Instr.ofOpcode_some {op : BitVec 8} {i : Instr} (h : Instr.ofOpcode op = some i) : op = i.opcode := by
  apply BitVec.eq_of_toNat_eq
  unfold Instr.ofOpcode at h
  split at h <;> first
    | (rename_i e; cases h; rw [e]; rfl)
    | cases h

/-- Only its own encoding decodes to a command. -/
theorem encode_of_decode {v : Word} {i : Instr} (h : decode v = .command i) : v = encode i := by
  unfold decode at h
  split at h
  · cases h
  · rename_i hr
    have hr : rsvdField v = 0 := by simpa using hr
    split at h
    · rename_i j hj
      obtain rfl : j = i := by simpa using h
      apply BitVec.eq_of_toNat_eq
      rw [toNat_of_rsvd_zero hr, Instr.ofOpcode_some hj]
      cases j <;> rfl
    · cases h

/-- R93, R95: the illegal words are those from 8 on. -/
theorem decode_illegal_iff (v : Word) : decode v = .illegal ↔ 8 ≤ v.toNat := by
  constructor
  · intro h
    unfold decode at h
    split at h
    · rename_i hr
      have : rsvdField v ≠ 0 := hr
      by_contra hlt
      apply this
      apply BitVec.eq_of_toNat_eq
      simp only [rsvdField, BitVec.extractLsb'_toNat, Nat.shiftRight_eq_div_pow]
      simp
      omega
    · rename_i hr
      have hr : rsvdField v = 0 := by simpa using hr
      split at h
      · cases h
      · rename_i hn
        rw [toNat_of_rsvd_zero hr]
        unfold Instr.ofOpcode at hn
        split at hn <;> simp_all
        omega
  · intro h
    cases hd : decode v with
    | illegal => rfl
    | command i =>
      rw [encode_of_decode hd] at h
      cases i <;> simp [encode, Instr.opcode] at h

namespace Machine

@[simp] theorem Reg.ofOff_off (r : Reg) : Reg.ofOff r.off = some r := by cases r <;> rfl

@[simp] theorem legal_off (r : Reg) : legal r.off 8 = true := by cases r <;> rfl

theorem legal_iff (off size : Nat) : legal off size = true ↔ size = 8 ∧ off % 8 = 0 ∧ off ≤ 0xF8 := by
  simp only [legal, Config.accessBytes, Config.lastOffset, Bool.and_eq_true, beq_iff_eq, decide_eq_true_eq, and_assoc]

/-- R30: no register stands at or above 0x70. -/
theorem Reg.ofOff_reserved {off : Nat} (h : 0x70 ≤ off) : Reg.ofOff off = none := by
  simp only [Reg.ofOff, Reg.all, List.find?_eq_none, List.mem_cons, List.not_mem_nil, or_false]
  rintro r (rfl | rfl | rfl | rfl | rfl | rfl | rfl | rfl | rfl | rfl | rfl | rfl | rfl | rfl) <;>
    simp [Reg.off] <;> omega

theorem lane_toNat (k : Nat) (v : Word) : (lane k v).toNat = v.toNat / 2 ^ (8 * k) % 256 := by
  simp [lane, BitVec.extractLsb'_toNat, Nat.shiftRight_eq_div_pow]

/-- R75: the lanes of a register, lane 0 the least significant, are the register. -/
theorem ofLanes_lanes (v : Word) : ofLanes (lanes v) = v.toNat := by
  have := v.isLt
  simp [lanes, List.range, List.range.loop, ofLanes, lane_toNat]
  omega

/-- R96: `WR` takes every integer in `[0, 2^64)`. -/
theorem wordOf_eq {v : Int} (h0 : 0 ≤ v) (h1 : v < 2 ^ 64) : wordOf v = some (BitVec.ofInt 64 v) := if_pos ⟨h0, h1⟩

@[simp] theorem wordOf_toNat (v : Word) : wordOf (v.toNat : Int) = some v := by
  have := v.isLt
  rw [wordOf_eq (by omega) (by omega)]
  exact congrArg some (BitVec.eq_of_toNat_eq (by simp))

theorem wordOf_natCast {n : Nat} (h : n < 2 ^ 64) : wordOf (n : Int) = some (BitVec.ofNat 64 n) := by
  have := wordOf_toNat (BitVec.ofNat 64 n)
  rwa [BitVec.toNat_ofNat, Nat.mod_eq_of_lt h] at this

theorem Vars.get_put (vs : Vars) (t : Nat) (x : Int) : (vs.put t x).get t = some x := by
  induction vs with
  | nil => simp [Vars.put, Vars.get]
  | cons p vs ih =>
    obtain ⟨u, w⟩ := p
    simp only [Vars.put]
    split
    · simp [Vars.get]
    · split
      · simp [Vars.get]
      · rename_i h
        have : ¬ u = t := fun e => h e.symm
        simpa [Vars.get, List.find?_cons, this] using ih

theorem Vars.mem_put {vs : Vars} {t : Nat} {x : Int} {p : Nat × Int} (h : p ∈ vs.put t x) : p.1 = t ∨ p ∈ vs := by
  induction vs with
  | nil => simp [Vars.put] at h; simp [h]
  | cons q vs ih =>
    obtain ⟨u, w⟩ := q
    simp only [Vars.put] at h
    split at h
    · rcases List.mem_cons.1 h with rfl | h
      · exact .inl rfl
      · exact .inr h
    · split at h
      · rcases List.mem_cons.1 h with rfl | h
        · exact .inl rfl
        · exact .inr (List.mem_cons_of_mem _ h)
      · rcases List.mem_cons.1 h with rfl | h
        · exact .inr List.mem_cons_self
        · exact (ih h).imp id (List.mem_cons_of_mem _)

/-- A write keeps the canonical form of the host's variables. -/
theorem Vars.wf_put {vs : Vars} (h : vs.wf = true) (t : Nat) (x : Int) : (vs.put t x).wf = true := by
  simp only [Vars.wf, decide_eq_true_eq] at h ⊢
  induction vs with
  | nil => simp [Vars.put]
  | cons q vs ih =>
    obtain ⟨u, w⟩ := q
    simp only [List.map_cons, List.pairwise_cons] at h
    simp only [Vars.put]
    split
    · rename_i hlt
      simp only [List.map_cons, List.pairwise_cons, List.mem_cons, forall_eq_or_imp]
      exact ⟨⟨hlt, fun a ha => lt_trans hlt (h.1 a ha)⟩, h⟩
    · split
      · rename_i he
        subst he
        simpa using h
      · rename_i h1 h2
        simp only [List.map_cons, List.pairwise_cons]
        refine ⟨fun a ha => ?_, ih h.2⟩
        obtain ⟨p, hp, rfl⟩ := List.mem_map.1 ha
        rcases Vars.mem_put hp with e | hp
        · omega
        · exact h.1 _ (List.mem_map_of_mem hp)

end Machine

end Sys2Proof
end

