-- ==== Sys2Proof/Laws/State.lean ====
section
/-! SUPPORT. One lemma per field per update: what each shared operation on the state leaves in each field, so that no later
proof unfolds a record update. -/

namespace Sys2Proof.Machine

variable (s : State)


/-! `complete` -/

@[simp] theorem complete_ieDone : (complete s).ieDone = s.ieDone := rfl
@[simp] theorem complete_ieErr : (complete s).ieErr = s.ieErr := rfl
@[simp] theorem complete_busy : (complete s).busy = false := rfl
@[simp] theorem complete_done : (complete s).done = true := rfl
@[simp] theorem complete_err : (complete s).err = s.err := rfl
@[simp] theorem complete_ovr : (complete s).ovr = s.ovr := rfl
@[simp] theorem complete_errcode : (complete s).errcode = s.errcode := rfl
@[simp] theorem complete_lastop : (complete s).lastop = s.lastop := rfl
@[simp] theorem complete_opa : (complete s).opa = s.opa := rfl
@[simp] theorem complete_opb : (complete s).opb = s.opb := rfl
@[simp] theorem complete_opc : (complete s).opc = s.opc := rfl
@[simp] theorem complete_res0 : (complete s).res0 = s.res0 := rfl
@[simp] theorem complete_res1 : (complete s).res1 = s.res1 := rfl
@[simp] theorem complete_iterLimit : (complete s).iterLimit = s.iterLimit := rfl
@[simp] theorem complete_iterCount : (complete s).iterCount = s.iterCount := rfl
@[simp] theorem complete_rhoX : (complete s).rhoX = s.rhoX := rfl
@[simp] theorem complete_rhoY : (complete s).rhoY = s.rhoY := rfl
@[simp] theorem complete_rhoBatch : (complete s).rhoBatch = s.rhoBatch := rfl
@[simp] theorem complete_engOp : (complete s).engOp = s.engOp := rfl
@[simp] theorem complete_sa : (complete s).sa = s.sa := rfl
@[simp] theorem complete_sb : (complete s).sb = s.sb := rfl
@[simp] theorem complete_sc : (complete s).sc = s.sc := rfl
@[simp] theorem complete_slim : (complete s).slim = s.slim := rfl
@[simp] theorem complete_rhoCnt : (complete s).rhoCnt = s.rhoCnt := rfl
@[simp] theorem complete_rhoD : (complete s).rhoD = s.rhoD := rfl
@[simp] theorem complete_events : (complete s).events = s.events := rfl
@[simp] theorem complete_rsp : (complete s).rsp = s.rsp := rfl
@[simp] theorem complete_host : (complete s).host = s.host := rfl

/-! `finish` -/

@[simp] theorem finish_ieDone (r0 r1 : Word) : (finish r0 r1 s).ieDone = s.ieDone := rfl
@[simp] theorem finish_ieErr (r0 r1 : Word) : (finish r0 r1 s).ieErr = s.ieErr := rfl
@[simp] theorem finish_busy (r0 r1 : Word) : (finish r0 r1 s).busy = false := rfl
@[simp] theorem finish_done (r0 r1 : Word) : (finish r0 r1 s).done = true := rfl
@[simp] theorem finish_err (r0 r1 : Word) : (finish r0 r1 s).err = s.err := rfl
@[simp] theorem finish_ovr (r0 r1 : Word) : (finish r0 r1 s).ovr = s.ovr := rfl
@[simp] theorem finish_errcode (r0 r1 : Word) : (finish r0 r1 s).errcode = s.errcode := rfl
@[simp] theorem finish_lastop (r0 r1 : Word) : (finish r0 r1 s).lastop = s.lastop := rfl
@[simp] theorem finish_opa (r0 r1 : Word) : (finish r0 r1 s).opa = s.opa := rfl
@[simp] theorem finish_opb (r0 r1 : Word) : (finish r0 r1 s).opb = s.opb := rfl
@[simp] theorem finish_opc (r0 r1 : Word) : (finish r0 r1 s).opc = s.opc := rfl
@[simp] theorem finish_res0 (r0 r1 : Word) : (finish r0 r1 s).res0 = r0 := rfl
@[simp] theorem finish_res1 (r0 r1 : Word) : (finish r0 r1 s).res1 = r1 := rfl
@[simp] theorem finish_iterLimit (r0 r1 : Word) : (finish r0 r1 s).iterLimit = s.iterLimit := rfl
@[simp] theorem finish_iterCount (r0 r1 : Word) : (finish r0 r1 s).iterCount = s.iterCount := rfl
@[simp] theorem finish_rhoX (r0 r1 : Word) : (finish r0 r1 s).rhoX = s.rhoX := rfl
@[simp] theorem finish_rhoY (r0 r1 : Word) : (finish r0 r1 s).rhoY = s.rhoY := rfl
@[simp] theorem finish_rhoBatch (r0 r1 : Word) : (finish r0 r1 s).rhoBatch = s.rhoBatch := rfl
@[simp] theorem finish_engOp (r0 r1 : Word) : (finish r0 r1 s).engOp = s.engOp := rfl
@[simp] theorem finish_sa (r0 r1 : Word) : (finish r0 r1 s).sa = s.sa := rfl
@[simp] theorem finish_sb (r0 r1 : Word) : (finish r0 r1 s).sb = s.sb := rfl
@[simp] theorem finish_sc (r0 r1 : Word) : (finish r0 r1 s).sc = s.sc := rfl
@[simp] theorem finish_slim (r0 r1 : Word) : (finish r0 r1 s).slim = s.slim := rfl
@[simp] theorem finish_rhoCnt (r0 r1 : Word) : (finish r0 r1 s).rhoCnt = s.rhoCnt := rfl
@[simp] theorem finish_rhoD (r0 r1 : Word) : (finish r0 r1 s).rhoD = s.rhoD := rfl
@[simp] theorem finish_events (r0 r1 : Word) : (finish r0 r1 s).events = s.events := rfl
@[simp] theorem finish_rsp (r0 r1 : Word) : (finish r0 r1 s).rsp = s.rsp := rfl
@[simp] theorem finish_host (r0 r1 : Word) : (finish r0 r1 s).host = s.host := rfl

/-! `raiseErr` -/

@[simp] theorem raiseErr_ieDone (c : BitVec 4) : (raiseErr c s).ieDone = s.ieDone := rfl
@[simp] theorem raiseErr_ieErr (c : BitVec 4) : (raiseErr c s).ieErr = s.ieErr := rfl
@[simp] theorem raiseErr_busy (c : BitVec 4) : (raiseErr c s).busy = false := rfl
@[simp] theorem raiseErr_done (c : BitVec 4) : (raiseErr c s).done = s.done := rfl
@[simp] theorem raiseErr_err (c : BitVec 4) : (raiseErr c s).err = true := rfl
@[simp] theorem raiseErr_ovr (c : BitVec 4) : (raiseErr c s).ovr = s.ovr := rfl
@[simp] theorem raiseErr_errcode (c : BitVec 4) : (raiseErr c s).errcode = c := rfl
@[simp] theorem raiseErr_lastop (c : BitVec 4) : (raiseErr c s).lastop = s.lastop := rfl
@[simp] theorem raiseErr_opa (c : BitVec 4) : (raiseErr c s).opa = s.opa := rfl
@[simp] theorem raiseErr_opb (c : BitVec 4) : (raiseErr c s).opb = s.opb := rfl
@[simp] theorem raiseErr_opc (c : BitVec 4) : (raiseErr c s).opc = s.opc := rfl
@[simp] theorem raiseErr_res0 (c : BitVec 4) : (raiseErr c s).res0 = s.res0 := rfl
@[simp] theorem raiseErr_res1 (c : BitVec 4) : (raiseErr c s).res1 = s.res1 := rfl
@[simp] theorem raiseErr_iterLimit (c : BitVec 4) : (raiseErr c s).iterLimit = s.iterLimit := rfl
@[simp] theorem raiseErr_iterCount (c : BitVec 4) : (raiseErr c s).iterCount = s.iterCount := rfl
@[simp] theorem raiseErr_rhoX (c : BitVec 4) : (raiseErr c s).rhoX = s.rhoX := rfl
@[simp] theorem raiseErr_rhoY (c : BitVec 4) : (raiseErr c s).rhoY = s.rhoY := rfl
@[simp] theorem raiseErr_rhoBatch (c : BitVec 4) : (raiseErr c s).rhoBatch = s.rhoBatch := rfl
@[simp] theorem raiseErr_engOp (c : BitVec 4) : (raiseErr c s).engOp = s.engOp := rfl
@[simp] theorem raiseErr_sa (c : BitVec 4) : (raiseErr c s).sa = s.sa := rfl
@[simp] theorem raiseErr_sb (c : BitVec 4) : (raiseErr c s).sb = s.sb := rfl
@[simp] theorem raiseErr_sc (c : BitVec 4) : (raiseErr c s).sc = s.sc := rfl
@[simp] theorem raiseErr_slim (c : BitVec 4) : (raiseErr c s).slim = s.slim := rfl
@[simp] theorem raiseErr_rhoCnt (c : BitVec 4) : (raiseErr c s).rhoCnt = s.rhoCnt := rfl
@[simp] theorem raiseErr_rhoD (c : BitVec 4) : (raiseErr c s).rhoD = s.rhoD := rfl
@[simp] theorem raiseErr_events (c : BitVec 4) : (raiseErr c s).events = s.events := rfl
@[simp] theorem raiseErr_rsp (c : BitVec 4) : (raiseErr c s).rsp = s.rsp := rfl
@[simp] theorem raiseErr_host (c : BitVec 4) : (raiseErr c s).host = s.host := rfl

/-! `beginAccept` -/

@[simp] theorem beginAccept_ieDone (op : BitVec 8) : (beginAccept op s).ieDone = s.ieDone := rfl
@[simp] theorem beginAccept_ieErr (op : BitVec 8) : (beginAccept op s).ieErr = s.ieErr := rfl
@[simp] theorem beginAccept_busy (op : BitVec 8) : (beginAccept op s).busy = s.busy := rfl
@[simp] theorem beginAccept_done (op : BitVec 8) : (beginAccept op s).done = false := rfl
@[simp] theorem beginAccept_err (op : BitVec 8) : (beginAccept op s).err = false := rfl
@[simp] theorem beginAccept_ovr (op : BitVec 8) : (beginAccept op s).ovr = s.ovr := rfl
@[simp] theorem beginAccept_errcode (op : BitVec 8) : (beginAccept op s).errcode = 0 := rfl
@[simp] theorem beginAccept_lastop (op : BitVec 8) : (beginAccept op s).lastop = op := rfl
@[simp] theorem beginAccept_opa (op : BitVec 8) : (beginAccept op s).opa = s.opa := rfl
@[simp] theorem beginAccept_opb (op : BitVec 8) : (beginAccept op s).opb = s.opb := rfl
@[simp] theorem beginAccept_opc (op : BitVec 8) : (beginAccept op s).opc = s.opc := rfl
@[simp] theorem beginAccept_res0 (op : BitVec 8) : (beginAccept op s).res0 = 0 := rfl
@[simp] theorem beginAccept_res1 (op : BitVec 8) : (beginAccept op s).res1 = 0 := rfl
@[simp] theorem beginAccept_iterLimit (op : BitVec 8) : (beginAccept op s).iterLimit = s.iterLimit := rfl
@[simp] theorem beginAccept_iterCount (op : BitVec 8) : (beginAccept op s).iterCount = s.iterCount := rfl
@[simp] theorem beginAccept_rhoX (op : BitVec 8) : (beginAccept op s).rhoX = s.rhoX := rfl
@[simp] theorem beginAccept_rhoY (op : BitVec 8) : (beginAccept op s).rhoY = s.rhoY := rfl
@[simp] theorem beginAccept_rhoBatch (op : BitVec 8) : (beginAccept op s).rhoBatch = s.rhoBatch := rfl
@[simp] theorem beginAccept_engOp (op : BitVec 8) : (beginAccept op s).engOp = s.engOp := rfl
@[simp] theorem beginAccept_sa (op : BitVec 8) : (beginAccept op s).sa = s.sa := rfl
@[simp] theorem beginAccept_sb (op : BitVec 8) : (beginAccept op s).sb = s.sb := rfl
@[simp] theorem beginAccept_sc (op : BitVec 8) : (beginAccept op s).sc = s.sc := rfl
@[simp] theorem beginAccept_slim (op : BitVec 8) : (beginAccept op s).slim = s.slim := rfl
@[simp] theorem beginAccept_rhoCnt (op : BitVec 8) : (beginAccept op s).rhoCnt = s.rhoCnt := rfl
@[simp] theorem beginAccept_rhoD (op : BitVec 8) : (beginAccept op s).rhoD = s.rhoD := rfl
@[simp] theorem beginAccept_events (op : BitVec 8) : (beginAccept op s).events = s.events := rfl
@[simp] theorem beginAccept_rsp (op : BitVec 8) : (beginAccept op s).rsp = s.rsp := rfl
@[simp] theorem beginAccept_host (op : BitVec 8) : (beginAccept op s).host = s.host := rfl

/-! `launch` -/

@[simp] theorem launch_ieDone (i : Instr) : (launch i s).ieDone = s.ieDone := rfl
@[simp] theorem launch_ieErr (i : Instr) : (launch i s).ieErr = s.ieErr := rfl
@[simp] theorem launch_busy (i : Instr) : (launch i s).busy = true := rfl
@[simp] theorem launch_done (i : Instr) : (launch i s).done = s.done := rfl
@[simp] theorem launch_err (i : Instr) : (launch i s).err = s.err := rfl
@[simp] theorem launch_ovr (i : Instr) : (launch i s).ovr = s.ovr := rfl
@[simp] theorem launch_errcode (i : Instr) : (launch i s).errcode = s.errcode := rfl
@[simp] theorem launch_lastop (i : Instr) : (launch i s).lastop = s.lastop := rfl
@[simp] theorem launch_opa (i : Instr) : (launch i s).opa = s.opa := rfl
@[simp] theorem launch_opb (i : Instr) : (launch i s).opb = s.opb := rfl
@[simp] theorem launch_opc (i : Instr) : (launch i s).opc = s.opc := rfl
@[simp] theorem launch_res0 (i : Instr) : (launch i s).res0 = s.res0 := rfl
@[simp] theorem launch_res1 (i : Instr) : (launch i s).res1 = s.res1 := rfl
@[simp] theorem launch_iterLimit (i : Instr) : (launch i s).iterLimit = s.iterLimit := rfl
@[simp] theorem launch_iterCount (i : Instr) : (launch i s).iterCount = s.iterCount := rfl
@[simp] theorem launch_rhoX (i : Instr) : (launch i s).rhoX = s.rhoX := rfl
@[simp] theorem launch_rhoY (i : Instr) : (launch i s).rhoY = s.rhoY := rfl
@[simp] theorem launch_rhoBatch (i : Instr) : (launch i s).rhoBatch = s.rhoBatch := rfl
@[simp] theorem launch_engOp (i : Instr) : (launch i s).engOp = i.opcode := rfl
@[simp] theorem launch_sa (i : Instr) : (launch i s).sa = s.opa := rfl
@[simp] theorem launch_sb (i : Instr) : (launch i s).sb = s.opb := rfl
@[simp] theorem launch_sc (i : Instr) : (launch i s).sc = s.opc := rfl
@[simp] theorem launch_slim (i : Instr) : (launch i s).slim = s.slim := rfl
@[simp] theorem launch_rhoCnt (i : Instr) : (launch i s).rhoCnt = s.rhoCnt := rfl
@[simp] theorem launch_rhoD (i : Instr) : (launch i s).rhoD = s.rhoD := rfl
@[simp] theorem launch_events (i : Instr) : (launch i s).events = s.events := rfl
@[simp] theorem launch_rsp (i : Instr) : (launch i s).rsp = s.rsp := rfl
@[simp] theorem launch_host (i : Instr) : (launch i s).host = s.host := rfl

/-! `rhoStart` -/

@[simp] theorem rhoStart_ieDone (p : Params) : (rhoStart p s).ieDone = s.ieDone := rfl
@[simp] theorem rhoStart_ieErr (p : Params) : (rhoStart p s).ieErr = s.ieErr := rfl
@[simp] theorem rhoStart_busy (p : Params) : (rhoStart p s).busy = s.busy := rfl
@[simp] theorem rhoStart_done (p : Params) : (rhoStart p s).done = s.done := rfl
@[simp] theorem rhoStart_err (p : Params) : (rhoStart p s).err = s.err := rfl
@[simp] theorem rhoStart_ovr (p : Params) : (rhoStart p s).ovr = s.ovr := rfl
@[simp] theorem rhoStart_errcode (p : Params) : (rhoStart p s).errcode = s.errcode := rfl
@[simp] theorem rhoStart_lastop (p : Params) : (rhoStart p s).lastop = s.lastop := rfl
@[simp] theorem rhoStart_opa (p : Params) : (rhoStart p s).opa = s.opa := rfl
@[simp] theorem rhoStart_opb (p : Params) : (rhoStart p s).opb = s.opb := rfl
@[simp] theorem rhoStart_opc (p : Params) : (rhoStart p s).opc = s.opc := rfl
@[simp] theorem rhoStart_res0 (p : Params) : (rhoStart p s).res0 = s.res0 := rfl
@[simp] theorem rhoStart_res1 (p : Params) : (rhoStart p s).res1 = s.res1 := rfl
@[simp] theorem rhoStart_iterLimit (p : Params) : (rhoStart p s).iterLimit = s.iterLimit := rfl
@[simp] theorem rhoStart_iterCount (p : Params) : (rhoStart p s).iterCount = 0 := rfl
@[simp] theorem rhoStart_rhoX (p : Params) : (rhoStart p s).rhoX = toWord p.seed := rfl
@[simp] theorem rhoStart_rhoY (p : Params) : (rhoStart p s).rhoY = toWord p.seed := rfl
@[simp] theorem rhoStart_rhoBatch (p : Params) : (rhoStart p s).rhoBatch = toWord p.batch0 := rfl
@[simp] theorem rhoStart_engOp (p : Params) : (rhoStart p s).engOp = s.engOp := rfl
@[simp] theorem rhoStart_sa (p : Params) : (rhoStart p s).sa = s.sa := rfl
@[simp] theorem rhoStart_sb (p : Params) : (rhoStart p s).sb = s.sb := rfl
@[simp] theorem rhoStart_sc (p : Params) : (rhoStart p s).sc = s.sc := rfl
@[simp] theorem rhoStart_slim (p : Params) : (rhoStart p s).slim = s.iterLimit := rfl
@[simp] theorem rhoStart_rhoCnt (p : Params) : (rhoStart p s).rhoCnt = 0 := rfl
@[simp] theorem rhoStart_rhoD (p : Params) : (rhoStart p s).rhoD = 1 := rfl
@[simp] theorem rhoStart_events (p : Params) : (rhoStart p s).events = s.events := rfl
@[simp] theorem rhoStart_rsp (p : Params) : (rhoStart p s).rsp = s.rsp := rfl
@[simp] theorem rhoStart_host (p : Params) : (rhoStart p s).host = s.host := rfl

/-! `rhoAdvance` -/

@[simp] theorem rhoAdvance_ieDone (p : Params) : (rhoAdvance p s).ieDone = s.ieDone := rfl
@[simp] theorem rhoAdvance_ieErr (p : Params) : (rhoAdvance p s).ieErr = s.ieErr := rfl
@[simp] theorem rhoAdvance_busy (p : Params) : (rhoAdvance p s).busy = s.busy := rfl
@[simp] theorem rhoAdvance_done (p : Params) : (rhoAdvance p s).done = s.done := rfl
@[simp] theorem rhoAdvance_err (p : Params) : (rhoAdvance p s).err = s.err := rfl
@[simp] theorem rhoAdvance_ovr (p : Params) : (rhoAdvance p s).ovr = s.ovr := rfl
@[simp] theorem rhoAdvance_errcode (p : Params) : (rhoAdvance p s).errcode = s.errcode := rfl
@[simp] theorem rhoAdvance_lastop (p : Params) : (rhoAdvance p s).lastop = s.lastop := rfl
@[simp] theorem rhoAdvance_opa (p : Params) : (rhoAdvance p s).opa = s.opa := rfl
@[simp] theorem rhoAdvance_opb (p : Params) : (rhoAdvance p s).opb = s.opb := rfl
@[simp] theorem rhoAdvance_opc (p : Params) : (rhoAdvance p s).opc = s.opc := rfl
@[simp] theorem rhoAdvance_res0 (p : Params) : (rhoAdvance p s).res0 = s.res0 := rfl
@[simp] theorem rhoAdvance_res1 (p : Params) : (rhoAdvance p s).res1 = s.res1 := rfl
@[simp] theorem rhoAdvance_iterLimit (p : Params) : (rhoAdvance p s).iterLimit = s.iterLimit := rfl
@[simp] theorem rhoAdvance_iterCount (p : Params) : (rhoAdvance p s).iterCount = s.iterCount + 1 := rfl
@[simp] theorem rhoAdvance_rhoX (p : Params) : (rhoAdvance p s).rhoX = toWord (rhoMap p s.sa.toNat s.rhoX.toNat) := rfl
@[simp] theorem rhoAdvance_rhoY (p : Params) : (rhoAdvance p s).rhoY = s.rhoY := rfl
@[simp] theorem rhoAdvance_rhoBatch (p : Params) : (rhoAdvance p s).rhoBatch = s.rhoBatch := rfl
@[simp] theorem rhoAdvance_engOp (p : Params) : (rhoAdvance p s).engOp = s.engOp := rfl
@[simp] theorem rhoAdvance_sa (p : Params) : (rhoAdvance p s).sa = s.sa := rfl
@[simp] theorem rhoAdvance_sb (p : Params) : (rhoAdvance p s).sb = s.sb := rfl
@[simp] theorem rhoAdvance_sc (p : Params) : (rhoAdvance p s).sc = s.sc := rfl
@[simp] theorem rhoAdvance_slim (p : Params) : (rhoAdvance p s).slim = s.slim := rfl
@[simp] theorem rhoAdvance_rhoCnt (p : Params) : (rhoAdvance p s).rhoCnt = s.rhoCnt + 1 := rfl
@[simp] theorem rhoAdvance_rhoD (p : Params) : (rhoAdvance p s).rhoD = toWord (Nat.gcd (absDiff (rhoMap p s.sa.toNat s.rhoX.toNat) s.rhoY.toNat) s.sa.toNat) := rfl
@[simp] theorem rhoAdvance_events (p : Params) : (rhoAdvance p s).events = s.events := rfl
@[simp] theorem rhoAdvance_rsp (p : Params) : (rhoAdvance p s).rsp = s.rsp := rfl
@[simp] theorem rhoAdvance_host (p : Params) : (rhoAdvance p s).host = s.host := rfl

/-! `resetBlock` -/

@[simp] theorem resetBlock_ieDone : (resetBlock s).ieDone = State.reset.ieDone := rfl
@[simp] theorem resetBlock_ieErr : (resetBlock s).ieErr = State.reset.ieErr := rfl
@[simp] theorem resetBlock_busy : (resetBlock s).busy = State.reset.busy := rfl
@[simp] theorem resetBlock_done : (resetBlock s).done = State.reset.done := rfl
@[simp] theorem resetBlock_err : (resetBlock s).err = State.reset.err := rfl
@[simp] theorem resetBlock_ovr : (resetBlock s).ovr = State.reset.ovr := rfl
@[simp] theorem resetBlock_errcode : (resetBlock s).errcode = State.reset.errcode := rfl
@[simp] theorem resetBlock_lastop : (resetBlock s).lastop = State.reset.lastop := rfl
@[simp] theorem resetBlock_opa : (resetBlock s).opa = State.reset.opa := rfl
@[simp] theorem resetBlock_opb : (resetBlock s).opb = State.reset.opb := rfl
@[simp] theorem resetBlock_opc : (resetBlock s).opc = State.reset.opc := rfl
@[simp] theorem resetBlock_res0 : (resetBlock s).res0 = State.reset.res0 := rfl
@[simp] theorem resetBlock_res1 : (resetBlock s).res1 = State.reset.res1 := rfl
@[simp] theorem resetBlock_iterLimit : (resetBlock s).iterLimit = State.reset.iterLimit := rfl
@[simp] theorem resetBlock_iterCount : (resetBlock s).iterCount = State.reset.iterCount := rfl
@[simp] theorem resetBlock_rhoX : (resetBlock s).rhoX = State.reset.rhoX := rfl
@[simp] theorem resetBlock_rhoY : (resetBlock s).rhoY = State.reset.rhoY := rfl
@[simp] theorem resetBlock_rhoBatch : (resetBlock s).rhoBatch = State.reset.rhoBatch := rfl
@[simp] theorem resetBlock_engOp : (resetBlock s).engOp = State.reset.engOp := rfl
@[simp] theorem resetBlock_sa : (resetBlock s).sa = State.reset.sa := rfl
@[simp] theorem resetBlock_sb : (resetBlock s).sb = State.reset.sb := rfl
@[simp] theorem resetBlock_sc : (resetBlock s).sc = State.reset.sc := rfl
@[simp] theorem resetBlock_slim : (resetBlock s).slim = State.reset.slim := rfl
@[simp] theorem resetBlock_rhoCnt : (resetBlock s).rhoCnt = State.reset.rhoCnt := rfl
@[simp] theorem resetBlock_rhoD : (resetBlock s).rhoD = State.reset.rhoD := rfl
@[simp] theorem resetBlock_events : (resetBlock s).events = s.events := rfl
@[simp] theorem resetBlock_rsp : (resetBlock s).rsp = s.rsp := rfl
@[simp] theorem resetBlock_host : (resetBlock s).host = s.host := rfl

end Sys2Proof.Machine
end

