-- ==== Sys2Proof/Laws/Ops.lean ====
section
/-! SUPPORT. What the shared operations on a command can do: a command's next transition, its accept, and its engine step,
said once. -/

namespace Sys2Proof.Machine

/-- The working registers a command's accept sets besides the snapshots (R181). -/
def initOf : Instr → State → State
  | .nop      => id
  | .digits   => id
  | .invchk   => id
  | .visitchk => id
  | .magic    => id
  | .factor   => rhoStart Config.prh1
  | .modinv   => id
  | .modpow   => id

/-- The engine step of each command (R183). -/
def engineOf : Instr → State → State
  | .nop      => nopStep
  | .digits   => digitsStep
  | .invchk   => invchkStep
  | .visitchk => visitchkStep
  | .magic    => magicStep
  | .factor   => rhoIteration Config.prh1
  | .modinv   => modinvStep
  | .modpow   => modpowStep

variable {i : Instr} {s t : State}

theorem exec_eq_command (i : Instr) (s : State) : exec i s = command i (initOf i) (engineOf i) s := by cases i <;> rfl

theorem exec_idle (i : Instr) (h : s.busy = false) : exec i s = .next (accept i (initOf i) s) := by
  simp [exec_eq_command, command, h]

theorem exec_busy (h : s.busy = true) (hd : domainOk i s.sa s.sb s.sc = true) : exec i s = .next (engineOf i s) := by
  simp [exec_eq_command, command, h, hd]

theorem exec_outOfDomain (h : s.busy = true) (hd : domainOk i s.sa s.sb s.sc = false) :
    exec i s = .fault .snapshotOutOfDomain := by
  simp [exec_eq_command, command, h, hd]

/-- The two ways a command reaches a next state: its accept, or its engine step on snapshots in its domain. -/
theorem exec_next (h : exec i s = .next t) :
    (s.busy = false ∧ t = accept i (initOf i) s) ∨
    (s.busy = true ∧ domainOk i s.sa s.sb s.sc = true ∧ t = engineOf i s) := by
  rw [exec_eq_command, command] at h
  split at h
  · split at h
    · cases h
      exact .inr ⟨‹_›, ‹_›, rfl⟩
    · cases h
  · cases h
    exact .inl ⟨by simpa using ‹¬s.busy = true›, rfl⟩

theorem accept_ok (init : State → State) (h : domainOk i s.opa s.opb s.opc = true) :
    accept i init s = launch i (init (beginAccept i.opcode s)) := by simp [accept, h]

theorem accept_bad (init : State → State) (h : domainOk i s.opa s.opb s.opc = false) :
    accept i init s = raiseErr errDomain (beginAccept i.opcode s) := by simp [accept, h]

/-- R183: the engine step of every command but `FACTOR` ends it: with results, with none to write (`NOP`), or, for
`MODINV`, with `ERR_NOT_COPRIME`. -/
theorem engineOf_ends (h : i ≠ .factor) (s : State) :
    (∃ r0 r1, engineOf i s = finish r0 r1 s) ∨ engineOf i s = complete s ∨
      (i = .modinv ∧ engineOf i s = raiseErr errNotCoprime s) := by
  cases i with
  | nop => exact .inr (.inl rfl)
  | digits => exact .inl ⟨_, _, rfl⟩
  | invchk => exact .inl ⟨_, _, rfl⟩
  | visitchk => exact .inl ⟨_, _, rfl⟩
  | magic =>
    simp only [engineOf, magicStep]
    split
    · exact .inl ⟨_, _, rfl⟩
    · split <;> exact .inl ⟨_, _, rfl⟩
  | factor => exact absurd rfl h
  | modinv =>
    simp only [engineOf, modinvStep]
    split
    · exact .inl ⟨_, _, rfl⟩
    · split
      · exact .inr (.inr ⟨trivial, rfl⟩)
      · exact .inl ⟨_, _, rfl⟩
  | modpow => exact .inl ⟨_, _, rfl⟩

/-- What an engine step of `FACTOR` is, without the limit (R142): the batch goes on, ends, or the factor is found. -/
theorem rhoIteration_cases (p : Params) (h : limitReached s = false) :
    let a := rhoAdvance p s
    let e : State := { a with rhoBatch := doubleBatch s.rhoBatch, rhoY := a.rhoX, rhoCnt := 0 }
    (a.rhoD = 1 ∧ a.rhoCnt ≠ s.rhoBatch ∧ rhoIteration p s = a) ∨
    (a.rhoD = 1 ∧ a.rhoCnt = s.rhoBatch ∧ rhoIteration p s = e) ∨
    (a.rhoD ≠ 1 ∧ rhoIteration p s = finish a.rhoD (toWord (s.sa.toNat / a.rhoD.toNat)) e) := by
  intro a e
  by_cases hd : a.rhoD = 1
  · by_cases hc : a.rhoCnt = s.rhoBatch
    · refine .inr (.inl ⟨hd, hc, ?_⟩)
      have hb : rhoBatchEnd a = e := if_pos (.inl hc)
      show (if limitReached s = true then _ else _) = e
      rw [if_neg (by simp [h])]
      show (if (rhoBatchEnd a).rhoD ≠ 1 then _ else rhoBatchEnd a) = e
      rw [hb, if_neg (by simpa [e] using hd)]
    · refine .inl ⟨hd, hc, ?_⟩
      have hb : rhoBatchEnd a = a := if_neg (by rintro (x | x); exacts [hc x, x hd])
      show (if limitReached s = true then _ else _) = a
      rw [if_neg (by simp [h])]
      show (if (rhoBatchEnd a).rhoD ≠ 1 then _ else rhoBatchEnd a) = a
      rw [hb, if_neg (by simpa using hd)]
  · refine .inr (.inr ⟨hd, ?_⟩)
    have hb : rhoBatchEnd a = e := if_pos (.inr hd)
    show (if limitReached s = true then _ else _) = _
    rw [if_neg (by simp [h])]
    show (if (rhoBatchEnd a).rhoD ≠ 1 then _ else rhoBatchEnd a) = _
    rw [hb, if_pos (by simpa [e] using hd)]
    rfl

theorem rhoIteration_limit (p : Params) (h : limitReached s = true) : rhoIteration p s = raiseErr errLimit s := by
  simp [rhoIteration, h]

/-- What no engine step touches (R32, R47, R188): operands, limit, enables, `OVR`, snapshots, `ENG_OP`, `LASTOP`, and the
environment. -/
def KeptByEngine (s t : State) : Prop :=
  t.opa = s.opa ∧ t.opb = s.opb ∧ t.opc = s.opc ∧ t.iterLimit = s.iterLimit ∧ t.ieDone = s.ieDone ∧ t.ieErr = s.ieErr ∧
  t.ovr = s.ovr ∧ t.sa = s.sa ∧ t.sb = s.sb ∧ t.sc = s.sc ∧ t.slim = s.slim ∧ t.engOp = s.engOp ∧ t.lastop = s.lastop ∧
  t.events = s.events ∧ t.rsp = s.rsp ∧ t.host = s.host

theorem engineOf_keeps (i : Instr) (s : State) : KeptByEngine s (engineOf i s) := by
  by_cases h : i = .factor
  · subst h
    cases hl : limitReached s with
    | true => rw [show engineOf .factor s = _ from rhoIteration_limit _ hl]; simp [KeptByEngine]
    | false =>
      rcases rhoIteration_cases Config.prh1 hl with ⟨-, -, e⟩ | ⟨-, -, e⟩ | ⟨-, e⟩ <;>
        rw [show engineOf .factor s = _ from e] <;> simp [KeptByEngine]
  · rcases engineOf_ends h s with ⟨r0, r1, e⟩ | e | ⟨-, e⟩ <;> rw [e] <;> simp [KeptByEngine]

end Sys2Proof.Machine
end

