-- ==== Sys2Proof/Laws/Arith.lean ====
section
/-! SUPPORT. The two reference loops compute what the rules define: `powMod` is `b^x mod m` (rule R171), `inverse` is the
inverse modulo `phi` (R161); and the arithmetic of a rho iteration stays in 64 bits (R146, R149). -/

namespace Sys2Proof.Machine

/-- The loop of R172 from any point of it. -/
theorem powLoop_eq (m : Nat) : ∀ (fuel acc p k : Nat), k < 2 ^ fuel → acc % m = acc →
    powLoop m fuel acc p k = acc * p ^ k % m
  | 0, acc, p, k, hk, ha => by
    obtain rfl : k = 0 := by simpa using hk
    simp [powLoop, ha]
  | fuel + 1, acc, p, k, hk, ha => by
    unfold powLoop
    split
    · subst_vars; simp [ha]
    · have hk2 : k / 2 < 2 ^ fuel := by rw [pow_succ] at hk; omega
      have hpow : (p * p % m) ^ (k / 2) % m = p ^ (2 * (k / 2)) % m := by
        rw [← Nat.pow_mod, pow_mul, pow_two]
      split
      · rename_i ho
        rw [powLoop_eq m fuel _ _ _ hk2 (Nat.mod_mod _ _)]
        have hk' : k = 2 * (k / 2) + 1 := by omega
        conv_rhs => rw [hk', pow_succ, ← mul_assoc, mul_right_comm]
        rw [Nat.mul_mod, hpow, Nat.mod_mod, ← Nat.mul_mod]
      · rename_i ho
        rw [powLoop_eq m fuel _ _ _ hk2 ha]
        have hk' : k = 2 * (k / 2) := by omega
        conv_rhs => rw [hk']
        rw [Nat.mul_mod, hpow, ← Nat.mul_mod]

/-- R171: `powMod` is the power. -/
theorem powMod_eq {x : Nat} (hx : x < 2 ^ 64) (b m : Nat) : powMod b x m = b ^ x % m := by
  rw [powMod, powLoop_eq m 64 _ _ _ hx (Nat.mod_mod _ _), Nat.mul_mod, Nat.mod_mod, ← Nat.pow_mod, ← Nat.mul_mod, one_mul]

theorem powMod_word (b x m : Word) : powMod b.toNat x.toNat m.toNat = b.toNat ^ x.toNat % m.toNat :=
  powMod_eq x.isLt _ _

/-- The loop of R163 from any point of it: the gcd, a coefficient below `phi` in size, and the congruence between them. -/
theorem euclid_spec (phi e : Nat) : ∀ (fuel r0 r1 : Nat) (t0 t1 : Int), r1 < fuel → r1 < r0 →
    (t0 ≤ 0 ∧ 0 ≤ t1 ∨ 0 ≤ t0 ∧ t1 ≤ 0) → (r0 : Int) * |t1| + r1 * |t0| = phi → |t0| < phi →
    (phi : Int) ∣ r0 - t0 * e → (phi : Int) ∣ r1 - t1 * e →
    (euclid fuel r0 r1 t0 t1).1 = Nat.gcd r0 r1 ∧ |(euclid fuel r0 r1 t0 t1).2| < phi ∧
      (phi : Int) ∣ (euclid fuel r0 r1 t0 t1).1 - (euclid fuel r0 r1 t0 t1).2 * e
  | 0, _, _, _, _, h, _, _, _, _, _, _ => absurd h (Nat.not_lt_zero _)
  | fuel + 1, r0, r1, t0, t1, hf, hr, hsign, hsum, hlt, h0, h1 => by
    unfold euclid
    split
    · subst_vars
      simpa using ⟨hlt, h0⟩
    · rename_i hne
      have hpos : 0 < r1 := Nat.pos_of_ne_zero hne
      have hmod : r0 - r0 / r1 * r1 = r0 % r1 := by
        have := Nat.div_add_mod r0 r1
        rw [mul_comm] at this
        omega
      have hdm : (r0 : Int) = r0 / r1 * r1 + (r0 % r1 : Nat) := by
        have := Nat.div_add_mod r0 r1
        push_cast
        linarith [Int.ediv_mul_add_emod (r0 : Int) (r1 : Int)]
      have hq : (0 : Int) ≤ (r0 / r1 : Nat) := Int.natCast_nonneg _
      have hr1 : r0 % r1 < r1 := Nat.mod_lt _ hpos
      rw [hmod]
      have hgcd : Nat.gcd r1 (r0 % r1) = Nat.gcd r0 r1 := by rw [Nat.gcd_comm r0 r1, Nat.gcd_rec r1 r0, Nat.gcd_comm]
      have habs : |t0 - (r0 / r1 : Nat) * t1| = |t0| + (r0 / r1 : Nat) * |t1| := by
        rcases hsign with ⟨a, b⟩ | ⟨a, b⟩
        · rw [abs_of_nonpos a, abs_of_nonneg b, abs_of_nonpos (by nlinarith)]; ring
        · rw [abs_of_nonneg a, abs_of_nonpos b, abs_of_nonneg (by nlinarith)]; ring
      have key := euclid_spec phi e fuel r1 (r0 % r1) t1 (t0 - (r0 / r1 : Nat) * t1) (by omega) hr1
        (by
          rcases hsign with ⟨a, b⟩ | ⟨a, b⟩
          · exact .inr ⟨b, by nlinarith⟩
          · exact .inl ⟨b, by nlinarith⟩)
        (by
          rw [habs]
          rw [hdm] at hsum
          push_cast at hsum ⊢
          linarith)
        (by
          have h2 : (2 : Int) ≤ r0 := by omega
          have ha := abs_nonneg t0
          have hb := abs_nonneg t1
          have hr1' : (0 : Int) ≤ r1 := Int.natCast_nonneg _
          have hphi : (0 : Int) < phi := lt_of_le_of_lt ha hlt
          nlinarith)
        h1
        (by
          have : ((r0 % r1 : Nat) : Int) - (t0 - (r0 / r1 : Nat) * t1) * e =
              (r0 - t0 * e) - (r0 / r1 : Nat) * (r1 - t1 * e) := by
            rw [show ((r0 % r1 : Nat) : Int) = r0 - r0 / r1 * r1 by linarith]
            push_cast
            ring
          rw [this]
          exact dvd_sub h0 (h1.mul_left _))
      rw [hgcd] at key
      exact key

/-- R161: `inverse` is an inverse, in range. -/
theorem inverse_spec {e phi : Nat} (h2 : 2 ≤ phi) (hg : Nat.gcd (e % phi) phi = 1) :
    1 ≤ inverse e phi ∧ inverse e phi < phi ∧ e * inverse e phi % phi = 1 := by
  have hlt : e % phi < phi := Nat.mod_lt _ (by omega)
  obtain ⟨hr, ht, hd⟩ := euclid_spec phi e (e % phi + 1) phi (e % phi) 0 1 (Nat.lt_succ_self _) hlt
    (.inl ⟨le_refl _, by norm_num⟩) (by simp) (by simpa using by omega) (by simp)
    (by
      have := Int.emod_add_mul_ediv (e : Int) phi
      exact ⟨-((e : Int) / phi), by push_cast; linarith⟩)
  rw [Nat.gcd_comm, hg] at hr
  rw [hr] at hd
  rw [inverse]
  generalize (euclid (e % phi + 1) phi (e % phi) 0 1).2 = t at ht hd ⊢
  obtain ⟨ht1, ht2⟩ := abs_lt.1 ht
  -- the normalised coefficient, as an integer in [0, phi)
  obtain ⟨d, hdv⟩ : ∃ d : Nat, (if 0 ≤ t then t else t + phi) = (d : Int) :=
    ⟨(if 0 ≤ t then t else t + phi).toNat, by split <;> omega⟩
  have hdlt : d < phi := by split at hdv <;> omega
  have hdvd : (phi : Int) ∣ 1 - d * e := by
    rw [← hdv]
    split
    · simpa using hd
    · have : (1 : Int) - (t + phi) * e = (1 - t * e) - phi * e := by ring
      rw [this]
      exact dvd_sub (by simpa using hd) (dvd_mul_right _ _)
  rw [hdv, Int.toNat_natCast]
  have hmod : e * d % phi = 1 := by
    have h1 : ((1 : Nat) : Int) ≡ ((e * d : Nat) : Int) [ZMOD phi] := by
      refine (Int.modEq_iff_dvd.2 ?_).symm
      push_cast
      rw [mul_comm (e : Int)]
      exact hdvd
    have := (Int.natCast_modEq_iff.1 h1).symm
    rw [Nat.ModEq, Nat.mod_eq_of_lt (show 1 < phi by omega)] at this
    exact this
  refine ⟨?_, hdlt, hmod⟩
  rcases Nat.eq_zero_or_pos d with rfl | h
  · simp at hmod
  · exact h

/-- R161: the inverse in range is unique. -/
theorem inverse_unique {e phi d d' : Nat} (hd : d < phi) (hd' : d' < phi) (h : e * d % phi = 1) (h' : e * d' % phi = 1) :
    d = d' := by
  have hz : d ≡ d' [MOD phi] :=
    calc d = 1 * d := (one_mul d).symm
      _ ≡ (e * d') * d [MOD phi] := Nat.ModEq.mul_right d (by
          rw [Nat.ModEq, h', Nat.mod_eq_of_lt]
          rcases Nat.lt_or_ge 1 phi with a | a
          · exact a
          · have := Nat.mod_lt (e * d) (show 0 < phi by omega); omega)
      _ = d' * (e * d) := by ring
      _ ≡ d' * 1 [MOD phi] := Nat.ModEq.mul_left d' (by
          rw [Nat.ModEq, h, Nat.mod_eq_of_lt]
          rcases Nat.lt_or_ge 1 phi with a | a
          · exact a
          · have := Nat.mod_lt (e * d) (show 0 < phi by omega); omega)
      _ = d' := mul_one d'
  rw [Nat.ModEq, Nat.mod_eq_of_lt hd, Nat.mod_eq_of_lt hd'] at hz
  exact hz

/-! The numbers of a rho iteration fit in 64 bits (R146, R149). -/

theorem toNat_toWord {n : Nat} (h : n < 2 ^ 64) : (toWord n).toNat = n := by
  rw [toWord, BitVec.toNat_ofNat, Nat.mod_eq_of_lt h]

theorem rhoMap_lt (p : Params) {n : Nat} (h : 1 ≤ n) (x : Nat) : rhoMap p n x < n := Nat.mod_lt _ h

theorem absDiff_eq (a b : Nat) : absDiff a b = max a b - min a b := by
  unfold absDiff
  omega

/-- The new `RHO_X` as an integer (R142). -/
theorem rhoAdvance_x (p : Params) {s : State} (h : 1 ≤ s.sa.toNat) :
    (rhoAdvance p s).rhoX.toNat = rhoMap p s.sa.toNat s.rhoX.toNat :=
  toNat_toWord (lt_trans (rhoMap_lt p h _) s.sa.isLt)

/-- The new `RHO_D` as an integer (R142). -/
theorem rhoAdvance_d (p : Params) {s : State} (h : 1 ≤ s.sa.toNat) :
    (rhoAdvance p s).rhoD.toNat =
      Nat.gcd (absDiff (rhoMap p s.sa.toNat s.rhoX.toNat) s.rhoY.toNat) s.sa.toNat :=
  toNat_toWord (lt_of_le_of_lt (Nat.gcd_le_right _ h) s.sa.isLt)

end Sys2Proof.Machine
end

