-- ==== Sys2Proof/Laws/Digits.lean ====
section
/-! SUPPORT. The digit engine's functions in the terms of the rules: nibbles and packing (R13, R40), the digit sequence
(R111), zero and repeat (R116), and the traversal (R121). -/

namespace Sys2Proof.Machine

/-- A nibble is the field `v[4i+3:4i]` (R9, R13). -/
theorem extract_nibble (v : Word) (i : Nat) : (v.extractLsb' (4 * i) 4).toNat = nibble v.toNat i := by
  simp [nibble, BitVec.extractLsb'_toNat, Nat.shiftRight_eq_div_pow, pow_mul]

theorem nibble_lt (v i : Nat) : nibble v i < 16 := Nat.mod_lt _ (by norm_num)

@[simp] theorem unpack_length (v len : Nat) : (unpack v len).length = len := by simp [unpack]

theorem unpack_getD {v len i : Nat} (h : i < len) : (unpack v len).getD i 0 = nibble v i := by
  simp [unpack, List.getD_eq_getElem?_getD, h]

theorem pack_lt {ds : List Nat} (h : ∀ d ∈ ds, d < 16) : pack ds < 16 ^ ds.length := by
  induction ds with
  | nil => simp [pack]
  | cons d ds ih =>
    have := ih fun x hx => h x (List.mem_cons_of_mem _ hx)
    have := h d List.mem_cons_self
    simp only [pack, List.length_cons, pow_succ]
    omega

/-- The nibbles of a packed sequence are its digits, then zeros (R40). -/
theorem nibble_pack {ds : List Nat} (h : ∀ d ∈ ds, d < 16) (i : Nat) : nibble (pack ds) i = ds.getD i 0 := by
  induction ds generalizing i with
  | nil => simp [pack, nibble]
  | cons d ds ih =>
    have hd := h d List.mem_cons_self
    cases i with
    | zero => simp [pack, nibble]; omega
    | succ i =>
      have := ih (fun x hx => h x (List.mem_cons_of_mem _ hx)) i
      simp only [List.getD_cons_succ, ← this, nibble, pack, pow_succ, Nat.mul_comm (16 ^ i), ← Nat.div_div_eq_div_mul]
      congr 2
      omega

/-- Unpacking what was packed gives it back (R13). -/
theorem unpack_pack {ds : List Nat} (h : ∀ d ∈ ds, d < 16) : unpack (pack ds) ds.length = ds := by
  apply List.ext_getElem
  · simp
  · intro i h1 h2
    simp [unpack, nibble_pack h, List.getD_eq_getElem?_getD, h2]

theorem pack_word {ds : List Nat} (h : ∀ d ∈ ds, d < 16) (hl : ds.length ≤ 16) : (toWord (pack ds)).toNat = pack ds := by
  apply toNat_toWord
  calc pack ds < 16 ^ ds.length := pack_lt h
    _ ≤ 16 ^ 16 := Nat.pow_le_pow_right (by norm_num) hl
    _ = 2 ^ 64 := by norm_num

/-! ## The digit sequence -/

/-- R111: the digit count is the least `L` with `n < 10^L`. -/
theorem digitCount_spec {n : Nat} (h : n < 10 ^ 16) :
    n < 10 ^ digitCount n ∧ (∀ m, n < 10 ^ m → digitCount n ≤ m) ∧ digitCount n ≤ 16 := by
  unfold digitCount
  cases hf : (List.range (Config.maxDigits + 1)).find? fun len => decide (n < 10 ^ len) with
  | none =>
    rw [List.find?_eq_none] at hf
    have := hf 16 (by simp)
    simp only [decide_eq_true_eq] at this
    exact absurd h this
  | some len =>
    rw [List.find?_range_eq_some] at hf
    obtain ⟨h1, h2, h3⟩ := hf
    simp only [decide_eq_true_eq, Option.getD_some] at h1 ⊢
    refine ⟨h1, fun m hm => ?_, ?_⟩
    · by_contra hlt
      have := h3 m (by omega)
      simp at this
      omega
    · simp at h2
      omega

theorem digitCount_pos {n : Nat} (h1 : 1 ≤ n) (h : n < 10 ^ 16) : 1 ≤ digitCount n := by
  by_contra hc
  have h0 : digitCount n = 0 := by omega
  have := (digitCount_spec h).1
  rw [h0] at this
  simp at this
  omega

@[simp] theorem digitSeq_length (n : Nat) : (digitSeq n).length = digitCount n := by simp [digitSeq]

theorem digitSeq_getD {n i : Nat} (h : i < digitCount n) :
    (digitSeq n).getD i 0 = n / 10 ^ (digitCount n - 1 - i) % 10 := by
  simp [digitSeq, List.getD_eq_getElem?_getD, h]

theorem digitSeq_lt (n : Nat) : ∀ d ∈ digitSeq n, d < 10 := by
  intro d hd
  obtain ⟨i, -, rfl⟩ := List.mem_map.1 hd
  exact Nat.mod_lt _ (by norm_num)

/-! ## Zero and repeat -/

theorem hasRepeat_iff (ds : List Nat) :
    hasRepeat ds = true ↔ ∃ i j, i < j ∧ j < ds.length ∧ ds.getD i 0 = ds.getD j 0 := by
  induction ds with
  | nil => simp [hasRepeat]
  | cons d ds ih =>
    simp only [hasRepeat, Bool.or_eq_true, ih, List.contains_iff_mem]
    constructor
    · rintro (hm | ⟨i, j, h1, h2, h3⟩)
      · obtain ⟨j, hj, rfl⟩ := List.mem_iff_getElem.1 hm
        exact ⟨0, j + 1, by omega, by simpa using hj, by simp [List.getD_eq_getElem?_getD, hj]⟩
      · exact ⟨i + 1, j + 1, by omega, by simpa using h2, by simpa using h3⟩
    · rintro ⟨i, j, h1, h2, h3⟩
      obtain ⟨j, rfl⟩ : ∃ k, j = k + 1 := ⟨j - 1, by omega⟩
      have hj : j < ds.length := by simpa using h2
      cases i with
      | zero =>
        left
        have : d = ds[j] := by simpa [List.getD_eq_getElem?_getD, hj] using h3
        rw [this]
        exact List.getElem_mem hj
      | succ i => exact .inr ⟨i, j, by omega, hj, by simpa using h3⟩

theorem contains_zero_iff (ds : List Nat) : ds.contains 0 = true ↔ ∃ i < ds.length, ds.getD i 0 = 0 := by
  rw [List.contains_iff_mem]
  constructor
  · intro hm
    obtain ⟨i, hi, h⟩ := List.mem_iff_getElem.1 hm
    exact ⟨i, hi, by simp [List.getD_eq_getElem?_getD, hi, h]⟩
  · rintro ⟨i, hi, h⟩
    have : ds[i] = 0 := by simpa [List.getD_eq_getElem?_getD, hi] using h
    rw [← this]
    exact List.getElem_mem hi

/-- R116, in its own words. -/
theorem invalidDigits_iff (ds : List Nat) :
    invalidDigits ds = true ↔ (∃ i < ds.length, ds.getD i 0 = 0) ∨
      ∃ i j, i < j ∧ j < ds.length ∧ ds.getD i 0 = ds.getD j 0 := by
  rw [invalidDigits, Bool.or_eq_true, contains_zero_iff, hasRepeat_iff]

/-! ## The traversal -/

/-- The positions `p_0 = 0, p_{s+1} = (p_s + D[p_s]) mod L` (R122). -/
def positions (ds : List Nat) : Nat → Nat
  | 0     => 0
  | s + 1 => move ds (positions ds s)

/-- The loop of R121 from step `s` on, with `k` moves left. -/
theorem walk_spec (ds : List Nat) : ∀ (k s : Nat) (early : Bool), s + k = ds.length →
    (walk ds k (positions ds s) early).1 = positions ds ds.length ∧
    ((walk ds k (positions ds s) early).2 = true ↔
      early = true ∨ ∃ t, s < t ∧ t < ds.length ∧ positions ds t = 0)
  | 0, s, early, h => by
    obtain rfl : s = ds.length := by omega
    refine ⟨rfl, ?_⟩
    constructor
    · exact .inl
    · rintro (h | ⟨t, h1, h2, -⟩)
      · exact h
      · omega
  | k + 1, s, early, h => by
    obtain ⟨h1, h2⟩ := walk_spec ds k (s + 1) (early || (decide (0 < k) && move ds (positions ds s) == 0)) (by omega)
    refine ⟨h1, ?_⟩
    simp only [walk]
    rw [show move ds (positions ds s) = positions ds (s + 1) from rfl] at h2 ⊢
    rw [h2]
    simp only [Bool.or_eq_true, Bool.and_eq_true, decide_eq_true_eq, beq_iff_eq]
    constructor
    · rintro ((h | ⟨hk, hz⟩) | ⟨t, a, b, c⟩)
      · exact .inl h
      · exact .inr ⟨s + 1, by omega, by omega, hz⟩
      · exact .inr ⟨t, by omega, b, c⟩
    · rintro (h | ⟨t, a, b, c⟩)
      · exact .inl (.inl h)
      · rcases Nat.lt_or_ge (s + 1) t with hlt | hge
        · exact .inr ⟨t, hlt, b, c⟩
        · obtain rfl : t = s + 1 := by omega
          exact .inl (.inr ⟨by omega, c⟩)

/-- R121, in its own words: position 0 after exactly `L` steps and after no earlier step. -/
theorem traversal_iff (ds : List Nat) :
    traversal ds = true ↔ positions ds ds.length = 0 ∧ ∀ t, 1 ≤ t → t < ds.length → positions ds t ≠ 0 := by
  obtain ⟨h1, h2⟩ := walk_spec ds ds.length 0 false (by omega)
  have h0 : positions ds 0 = 0 := rfl
  rw [h0] at h1 h2
  simp only [traversal, Bool.and_eq_true, beq_iff_eq, Bool.not_eq_true', h1]
  refine and_congr_right fun _ => ?_
  rw [← Bool.not_eq_true, h2]
  simp only [Bool.false_eq_true, false_or, not_exists, not_and]
  exact ⟨fun h t a b => h t (by omega) b, fun h t a b => h t (by omega) b⟩

end Sys2Proof.Machine
end

