-- ==== Sys2Proof/Laws/Flags.lean ====
section
/-! SUPPORT. The bits of `CTRL` and `STATUS` as read (rules R34, R35), and the writes to them field by field. -/

namespace Sys2Proof.Machine

variable (s : State)

/-- A bit of a word, from its value. -/
theorem getLsbD_eq (v : Word) (i : Nat) : v.getLsbD i = decide (v.toNat / 2 ^ i % 2 = 1) := by
  rw [BitVec.getLsbD, Nat.testBit_eq_decide_div_mod_eq]

theorem bool_toNat_lt (b : Bool) : b.toNat < 2 := by cases b <;> decide

theorem bool_toNat_eq (b : Bool) : decide (b.toNat = 1) = b := by cases b <;> rfl

/-- `STATUS` as a number: no field reaches into the next (R35). -/
theorem statusWord_toNat : (statusWord s).toNat =
    s.busy.toNat + 2 * s.done.toNat + 4 * s.err.toNat + 8 * s.ovr.toNat + 256 * s.errcode.toNat + 65536 * s.lastop.toNat := by
  have := bool_toNat_lt s.busy
  have := bool_toNat_lt s.done
  have := bool_toNat_lt s.err
  have := bool_toNat_lt s.ovr
  have := s.errcode.isLt
  have := s.lastop.isLt
  rw [statusWord, toWord, BitVec.toNat_ofNat]
  omega

theorem ctrlWord_toNat : (ctrlWord s).toNat = s.ieDone.toNat + 2 * s.ieErr.toNat := by
  have := bool_toNat_lt s.ieDone
  have := bool_toNat_lt s.ieErr
  rw [ctrlWord, toWord, BitVec.toNat_ofNat]
  omega

/-- The four flag bits of `STATUS` (R35). -/
theorem statusWord_flags :
    (statusWord s).getLsbD 0 = s.busy ∧ (statusWord s).getLsbD 1 = s.done ∧
    (statusWord s).getLsbD 2 = s.err ∧ (statusWord s).getLsbD 3 = s.ovr := by
  have h0 := bool_toNat_lt s.busy
  have h1 := bool_toNat_lt s.done
  have h2 := bool_toNat_lt s.err
  have h3 := bool_toNat_lt s.ovr
  simp only [getLsbD_eq, statusWord_toNat]
  refine ⟨?_, ?_, ?_, ?_⟩
  · exact (decide_eq_decide.2 (by omega)).trans (bool_toNat_eq s.busy)
  · exact (decide_eq_decide.2 (by omega)).trans (bool_toNat_eq s.done)
  · exact (decide_eq_decide.2 (by omega)).trans (bool_toNat_eq s.err)
  · exact (decide_eq_decide.2 (by omega)).trans (bool_toNat_eq s.ovr)

/-- The two enables of `CTRL` (R34). -/
theorem ctrlWord_enables : (ctrlWord s).getLsbD 0 = s.ieDone ∧ (ctrlWord s).getLsbD 1 = s.ieErr := by
  have h0 := bool_toNat_lt s.ieDone
  have h1 := bool_toNat_lt s.ieErr
  simp only [getLsbD_eq, ctrlWord_toNat]
  refine ⟨?_, ?_⟩
  · exact (decide_eq_decide.2 (by omega)).trans (bool_toNat_eq s.ieDone)
  · exact (decide_eq_decide.2 (by omega)).trans (bool_toNat_eq s.ieErr)

/-- The fields of `STATUS`, and its reserved bits, which read 0 (R35, R51). -/
theorem statusWord_fields :
    (statusWord s).extractLsb' 4 4 = 0 ∧ (statusWord s).extractLsb' 8 4 = s.errcode ∧
    (statusWord s).extractLsb' 12 4 = 0 ∧ (statusWord s).extractLsb' 16 8 = s.lastop ∧
    (statusWord s).extractLsb' 24 40 = 0 := by
  have := bool_toNat_lt s.busy
  have := bool_toNat_lt s.done
  have := bool_toNat_lt s.err
  have := bool_toNat_lt s.ovr
  have := s.errcode.isLt
  have := s.lastop.isLt
  refine ⟨?_, ?_, ?_, ?_, ?_⟩ <;> apply BitVec.eq_of_toNat_eq <;>
    simp only [BitVec.extractLsb'_toNat, Nat.shiftRight_eq_div_pow, statusWord_toNat, BitVec.ofNat_eq_ofNat,
      BitVec.toNat_ofNat] <;> omega

/-- A word below `2^n` has no bit from `n` on. -/
theorem getLsbD_small {v : Word} {n i : Nat} (h : v.toNat < 2 ^ n) (hi : n ≤ i) : v.getLsbD i = false :=
  Nat.testBit_lt_two_pow (lt_of_lt_of_le h (Nat.pow_le_pow_right (by norm_num) hi))

/-- The reserved bits of `CTRL`, and `ABORT`, read 0 (R34, R51). -/
theorem ctrlWord_reserved {i : Nat} (h : 2 ≤ i) : (ctrlWord s).getLsbD i = false := by
  apply getLsbD_small (n := 2) _ h
  have := bool_toNat_lt s.ieDone
  have := bool_toNat_lt s.ieErr
  rw [ctrlWord_toNat]
  omega

/-- The reserved bits of `STATUS` read 0 (R35, R51). -/
theorem statusWord_reserved {i : Nat} (h : (4 ≤ i ∧ i ≤ 7) ∨ (12 ≤ i ∧ i ≤ 15) ∨ 24 ≤ i) :
    (statusWord s).getLsbD i = false := by
  obtain ⟨a, -, b, -, c⟩ := statusWord_fields s
  rcases h with ⟨h1, h2⟩ | ⟨h1, h2⟩ | h
  · have := congrArg (fun v : BitVec 4 => v.getLsbD (i - 4)) a
    simpa [show i - 4 < 4 by omega, show 4 + (i - 4) = i by omega] using this
  · have := congrArg (fun v : BitVec 4 => v.getLsbD (i - 12)) b
    simpa [show i - 12 < 4 by omega, show 12 + (i - 12) = i by omega] using this
  · by_cases h64 : i < 64
    · have := congrArg (fun v : BitVec 40 => v.getLsbD (i - 24)) c
      simpa [show i - 24 < 40 by omega, show 24 + (i - 24) = i by omega] using this
    · exact BitVec.getLsbD_of_ge _ _ (by omega)

end Sys2Proof.Machine
end

