-- ==== Sys2Proof/Laws/Step.lean ====
section
/-! SUPPORT. What one step can do, said once: `turn_spec` gives the cases of a turn, `step_next` those of a step that
reaches a next state. -/

namespace Sys2Proof.Machine

/-- `u` is `s` but for the environment's fields (whose variables keep their form): what taking an event, answering an access
and moving the host program amount to. -/
structure SameBlock (s u : State) : Prop where
  eq : u = { s with events := u.events, rsp := u.rsp, host := u.host }
  vars : s.host.vars.wf = true → u.host.vars.wf = true

theorem SameBlock.refl (s : State) : SameBlock s s := ⟨rfl, id⟩

theorem SameBlock.trans {s u w : State} (h : SameBlock s u) (k : SameBlock u w) : SameBlock s w :=
  ⟨by rw [k.eq, h.eq], fun x => k.vars (h.vars x)⟩

theorem SameBlock.events (s : State) (es : List Event) : SameBlock s { s with events := es } := ⟨rfl, id⟩

theorem SameBlock.rsp (s : State) (r : Option Response) : SameBlock s { s with rsp := r } := ⟨rfl, id⟩

/-- What a turn can be. -/
inductive TurnIs (s : State) : Turn → Prop
  /-- nothing of the block changes: a read, an ignored write, a bus error, host arithmetic, an idle engine -/
  | quiet {u} (h : SameBlock s u) : TurnIs s (.finished (.next u))
  /-- a write to `CMD` while busy (R185) -/
  | dropped {u} (h : SameBlock s u) (hb : s.busy = true) : TurnIs s (.finished (.next { u with ovr := true }))
  /-- the accept of an illegal word (R181, R95) -/
  | illegal {u} (v : Word) (h : SameBlock s u) (hb : s.busy = false) (hd : decode v = .illegal) :
      TurnIs s (.finished (.next (acceptIllegal v u)))
  /-- a write to `CTRL` (R34) -/
  | ctrl {u} (v : Word) (h : SameBlock s u) : TurnIs s (.finished (.next (writeCtrl v u)))
  /-- a write to `STATUS` (R35) -/
  | status {u} (v : Word) (h : SameBlock s u) : TurnIs s (.finished (.next (writeStatus v u)))
  /-- a write to an operand register or `ITER_LIMIT` (R42, R45) -/
  | operand {u} (a b c l : Word) (h : SameBlock s u) :
      TurnIs s (.finished (.next { u with opa := a, opb := b, opc := c, iterLimit := l }))
  /-- `rst` (R230) -/
  | reset {u} (h : SameBlock s u) : TurnIs s (.finished (.next (resetBlock u)))
  /-- the accept of a command (R181) -/
  | accept {u} (i : Instr) (h : SameBlock s u) (hb : s.busy = false) : TurnIs s (.command i u)
  /-- the engine step of the command in flight (R183) -/
  | engine {u} (i : Instr) (h : SameBlock s u) (hb : s.busy = true) (ho : s.engOp = i.opcode) : TurnIs s (.command i u)
  /-- `ENG_OP` names no command -/
  | noCommand (hb : s.busy = true) (ho : Instr.ofOpcode s.engOp = none) : TurnIs s (.finished (.fault .engineOpUndefined))
  /-- the host program is stuck -/
  | stuck (e : HostError) : TurnIs s (.finished (.fault (.hostStuck e)))

theorem SameBlock.busy {s u : State} (h : SameBlock s u) : u.busy = s.busy := by rw [h.eq]

theorem SameBlock.engOp {s u : State} (h : SameBlock s u) : u.engOp = s.engOp := by rw [h.eq]

/-- What holds of a turn from `u` holds of it from a state that differs in the environment only. -/
theorem TurnIs.mono {s u : State} {t : Turn} (h : SameBlock s u) (k : TurnIs u t) : TurnIs s t := by
  cases k with
  | quiet k => exact .quiet (h.trans k)
  | dropped k hb => exact .dropped (h.trans k) (h.busy ▸ hb)
  | illegal v k hb hd => exact .illegal v (h.trans k) (h.busy ▸ hb) hd
  | ctrl v k => exact .ctrl v (h.trans k)
  | status v k => exact .status v (h.trans k)
  | operand a b c l k => exact .operand a b c l (h.trans k)
  | reset k => exact .reset (h.trans k)
  | accept i k hb => exact .accept i (h.trans k) (h.busy ▸ hb)
  | engine i k hb ho => exact .engine i (h.trans k) (h.busy ▸ hb) (h.engOp ▸ ho)
  | noCommand hb ho => exact .noCommand (h.busy ▸ hb) (h.engOp ▸ ho)
  | stuck e => exact .stuck e

theorem writeReg_spec (r : Reg) (v : Word) (s : State) : TurnIs s (writeReg r v s) := by
  cases r with
  | ctrl => exact .ctrl v (.refl s)
  | status => exact .status v (.refl s)
  | cmd =>
    simp only [writeReg, writeCmd]
    split
    · exact .dropped (.refl s) ‹_›
    · have hb : s.busy = false := by simpa using ‹¬s.busy = true›
      split
      · exact .accept _ (.refl s) hb
      · exact .illegal v (.refl s) hb ‹_›
  | opa => exact .operand v s.opb s.opc s.iterLimit (.refl s)
  | opb => exact .operand s.opa v s.opc s.iterLimit (.refl s)
  | opc => exact .operand s.opa s.opb v s.iterLimit (.refl s)
  | iterLimit => exact .operand s.opa s.opb s.opc v (.refl s)
  | id => exact .quiet (.refl s)
  | res0 => exact .quiet (.refl s)
  | res1 => exact .quiet (.refl s)
  | iterCount => exact .quiet (.refl s)
  | rhoX => exact .quiet (.refl s)
  | rhoY => exact .quiet (.refl s)
  | rhoBatch => exact .quiet (.refl s)

theorem access_spec (a : Access) (s : State) : TurnIs s (access a s) := by
  unfold access
  split
  · cases a with
    | read off size => exact .quiet (.rsp s _)
    | write off size v =>
      simp only [writeOff]
      split
      · exact (writeReg_spec _ v _).mono (.rsp s _)
      · exact .quiet (.rsp s _)
  · exact .quiet (.rsp s _)

/-- Where a statement of the host program leaves its variables: in their canonical form. -/
def HostAction.varsOk : HostAction → Prop
  | .idle        => True
  | .silent k    => k.vars.wf = true
  | .write _ _ k => k.vars.wf = true
  | .read _ _ k  => k.vars.wf = true
  | .stuck _     => True

theorem HostState.goto_varsOk {h : HostState} (hw : h.vars.wf = true) (l : Nat) : (h.goto l).varsOk := by
  unfold HostState.goto
  split
  · exact hw
  · trivial

theorem HostState.next_varsOk {h : HostState} (hw : h.vars.wf = true) : h.next.varsOk := by
  unfold HostState.next
  split
  · trivial
  · dsimp only
    split
    · trivial
    · exact hw
    · exact hw
    · exact goto_varsOk hw _
    · split
      · exact goto_varsOk hw _
      · exact hw
      · trivial
    · split
      · exact Vars.wf_put hw _ _
      · trivial
    · split
      · exact Vars.wf_put hw _ _
      · trivial
    · exact hw
    · split
      · split
        · exact hw
        · trivial
      · trivial

theorem hostTurn_spec (s : State) : TurnIs s (hostTurn s) := by
  unfold hostTurn
  have hv (w : s.host.vars.wf = true) := HostState.next_varsOk w
  split
  · exact .quiet (.refl s)
  · rename_i h e
    exact .quiet ⟨rfl, fun w => by rw [e] at hv; exact hv w⟩
  · rename_i off v h e
    exact (access_spec _ _).mono ⟨rfl, fun w => by rw [e] at hv; exact hv w⟩
  · rename_i off t h e
    exact (access_spec _ _).mono ⟨rfl, fun w => Vars.wf_put (by rw [e] at hv; exact hv w) _ _⟩
  · exact .stuck _

theorem engineTurn_spec (s : State) : TurnIs s (engineTurn s) := by
  unfold engineTurn
  split
  · split
    · exact .engine _ (.refl s) ‹_› (Instr.ofOpcode_some ‹_›)
    · exact .noCommand ‹_› ‹_›
  · exact .quiet (.refl s)

/-- What a turn can be, from any state. -/
theorem turn_spec (s : State) : TurnIs s (turn s) := by
  unfold turn
  split
  · split
    · exact engineTurn_spec s
    · exact hostTurn_spec s
  · rename_i e es he
    refine TurnIs.mono (.events s es) ?_
    cases e with
    | access a => exact access_spec a _
    | host => exact hostTurn_spec _
    | engine => exact engineTurn_spec _
    | reset l => exact .reset (.refl _)

/-- The cases of a step that reaches a next state. -/
theorem step_next {s t : State} (h : step s = .next t) :
    TurnIs s (.finished (.next t)) ∨
    (∃ i u, SameBlock s u ∧ s.busy = false ∧ t = Machine.accept i (initOf i) u) ∨
    (∃ i u, SameBlock s u ∧ s.busy = true ∧ s.engOp = i.opcode ∧ domainOk i s.sa s.sb s.sc = true ∧ t = engineOf i u) := by
  have hs := turn_spec s
  unfold step at h
  generalize turn s = u at hs h
  cases u with
  | finished o =>
    cases (show o = .next t from h)
    exact .inl hs
  | command i u =>
    cases hs with
    | accept _ hu hb =>
      rcases exec_next h with ⟨-, e⟩ | ⟨b, -⟩
      · exact .inr (.inl ⟨i, u, hu, hb, e⟩)
      · rw [hu.busy, hb] at b; cases b
    | engine _ hu hb hop =>
      rcases exec_next h with ⟨b, -⟩ | ⟨-, hd, e⟩
      · rw [hu.busy, hb] at b; cases b
      · refine .inr (.inr ⟨i, u, hu, hb, hop, ?_, e⟩)
        rw [hu.eq] at hd
        exact hd

/-- With one event listed, a step is that event's turn. -/
theorem step_event {s : State} {e : Event} {es : List Event} (h : s.events = e :: es) :
    step s = (turnOf e { s with events := es }).run := by
  simp only [step, turn, h]

/-- A legal read (R72, R73). -/
theorem access_read {off size : Nat} (h : legal off size = true) (s : State) :
    access (.read off size) s = .finished (.next { s with rsp := some (.data (readOff off s)) }) := by
  simp only [access, Access.legal, Access.off, Access.size, h, if_true]

/-- A legal write (R72, R74). -/
theorem access_write {off size : Nat} (h : legal off size = true) (v : Word) (s : State) :
    access (.write off size v) s = writeOff off v { s with rsp := some .written } := by
  simp only [access, Access.legal, Access.off, Access.size, h, if_true]

/-- An illegal access (R72). -/
theorem access_illegal {a : Access} (h : legal a.off a.size = false) (s : State) :
    access a s = .finished (.next { s with rsp := some (.busError a.off a.size) }) := by
  simp [access, Access.legal, h]

@[simp] theorem writeOff_off (r : Reg) (v : Word) (s : State) : writeOff r.off v s = writeReg r v s := by
  simp [writeOff]

@[simp] theorem readOff_off (r : Reg) (s : State) : readOff r.off s = readReg r s := by simp [readOff]

/-- A write to a register, as one step (R74). -/
theorem step_write {s : State} {es : List Event} {v : Word} (r : Reg) (h : s.events = .access (.write r.off 8 v) :: es) :
    step s = (writeReg r v { s with events := es, rsp := some .written }).run := by
  rw [step_event h, turnOf, access_write (legal_off r), writeOff_off]

/-- A read of a register, as one step (R73). -/
theorem step_read {s : State} {es : List Event} (r : Reg) (h : s.events = .access (.read r.off 8) :: es) :
    step s = .next { s with events := es, rsp := some (.data (readReg r { s with events := es })) } := by
  rw [step_event h, turnOf, access_read (legal_off r), readOff_off]
  rfl

/-- The write of a command word to an idle block (R181). -/
theorem step_command {s : State} {es : List Event} {v : Word} {i : Instr}
    (h : s.events = .access (.write 0x18 8 v) :: es) (hb : s.busy = false) (hd : decode v = .command i) :
    step s = exec i { s with events := es, rsp := some .written } := by
  rw [step_write .cmd h]
  simp [writeReg, writeCmd, hb, hd, Turn.run]

/-- The engine's turn while a command is in flight (R183). -/
theorem step_engine {s : State} {es : List Event} {i : Instr} (h : s.events = .engine :: es) (hb : s.busy = true)
    (ho : s.engOp = i.opcode) : step s = exec i { s with events := es } := by
  rw [step_event h]
  simp [turnOf, engineTurn, hb, ho, Instr.ofOpcode_opcode, Turn.run]

/-- A run of `k + 1` steps is a step and a run of `k`. -/
theorem run_succ {s t : State} (k : Nat) (h : step s = .next t) : Sys2Proof.core.run (k + 1) s = Sys2Proof.core.run k t := by
  simp only [Sys2Proof.core, Host.Core.run, h]

/-- The last of `k + 1` transitions under a schedule. -/
theorem runSchedule_succ {σ : Nat → Event} {k : Nat} {s t : State} (h : runSchedule σ k s = .next t) :
    runSchedule σ (k + 1) s = step { t with events := [σ k] } := by
  simp only [runSchedule, h]

/-- A turn by who moves: a host access, the engine, reset, or nobody that touches the block. -/
theorem turn_cases (s : State) :
    (∃ a u, accessMade s = some a ∧ SameBlock s u ∧ turn s = access a u) ∨
    (engineMoves s ∧ ∃ u, SameBlock s u ∧ turn s = engineTurn u) ∨
    (resets s ∧ ∃ u, SameBlock s u ∧ turn s = .finished (.next (resetBlock u))) ∨
    (∃ u, SameBlock s u ∧ turn s = .finished (.next u)) ∨
    ∃ e, turn s = .finished (.fault (.hostStuck e)) := by
  have host (u : State) (hu : SameBlock s u) (he : u.host = s.host) (ht : turn s = hostTurn u)
      (ha : accessMade s = hostAccess s) :
      (∃ a u, accessMade s = some a ∧ SameBlock s u ∧ turn s = access a u) ∨
      (∃ u, SameBlock s u ∧ turn s = .finished (.next u)) ∨
      ∃ e, turn s = .finished (.fault (.hostStuck e)) := by
    have hv (w : s.host.vars.wf = true) := HostState.next_varsOk w
    cases e : s.host.next with
    | idle => exact .inr (.inl ⟨u, hu, by simp only [ht, hostTurn, he, e]⟩)
    | silent h =>
      rw [e] at hv
      exact .inr (.inl ⟨{ u with host := h }, hu.trans ⟨rfl, fun w => hv (he ▸ w)⟩, by simp only [ht, hostTurn, he, e]⟩)
    | write off v h =>
      rw [e] at hv
      exact .inl ⟨.write off Config.accessBytes v, { u with host := h }, by simp only [ha, hostAccess, e, HostAction.transaction], hu.trans ⟨rfl, fun w => hv (he ▸ w)⟩,
        by simp only [ht, hostTurn, he, e]⟩
    | read off t h =>
      rw [e] at hv
      exact .inl ⟨.read off Config.accessBytes, { u with host := h.setVar t (readOff off u).toNat },
        by simp only [ha, hostAccess, e, HostAction.transaction],
        hu.trans ⟨rfl, fun w => Vars.wf_put (hv (he ▸ w)) _ _⟩, by simp only [ht, hostTurn, he, e]⟩
    | stuck r => exact .inr (.inr ⟨r, by simp only [ht, hostTurn, he, e]⟩)
  cases he : s.events with
  | nil =>
    cases hb : s.busy with
    | true => exact .inr (.inl ⟨⟨hb, .inl he⟩, s, .refl s, by simp [turn, he, hb]⟩)
    | false =>
      rcases host s (.refl s) rfl (by simp [turn, he, hb]) (by simp [accessMade, he, hb]) with h | h | h
      · exact .inl h
      · exact .inr (.inr (.inr (.inl h)))
      · exact .inr (.inr (.inr (.inr h)))
  | cons e es =>
    have hu : SameBlock s { s with events := es } := .events s es
    cases e with
    | access a => exact .inl ⟨a, _, by simp [accessMade, he], hu, by simp [turn, he, turnOf]⟩
    | host =>
      rcases host _ hu rfl (by simp [turn, he, turnOf]) (by simp [accessMade, he]) with h | h | h
      · exact .inl h
      · exact .inr (.inr (.inr (.inl h)))
      · exact .inr (.inr (.inr (.inr h)))
    | engine =>
      cases hb : s.busy with
      | true => exact .inr (.inl ⟨⟨hb, .inr ⟨es, he⟩⟩, _, hu, by simp [turn, he, turnOf]⟩)
      | false => exact .inr (.inr (.inr (.inl ⟨_, hu, by simp [turn, he, turnOf, engineTurn, hb]⟩)))
    | reset l => exact .inr (.inr (.inl ⟨⟨l, es, he⟩, _, hu, by simp [turn, he, turnOf]⟩))

/-- A write to a register that reaches a next state, register by register (R74). -/
theorem writeReg_next {r : Reg} {v : Word} {s t : State} (h : (writeReg r v s).run = .next t) :
    (r = .ctrl ∧ t = writeCtrl v s) ∨ (r = .status ∧ t = writeStatus v s) ∨
    (r = .cmd ∧ s.busy = true ∧ t = { s with ovr := true }) ∨
    (r = .cmd ∧ s.busy = false ∧ 8 ≤ v.toNat ∧ t = acceptIllegal v s) ∨
    (∃ i, r = .cmd ∧ s.busy = false ∧ v = encode i ∧ t = accept i (initOf i) s) ∨
    (r = .opa ∧ t = { s with opa := v }) ∨ (r = .opb ∧ t = { s with opb := v }) ∨
    (r = .opc ∧ t = { s with opc := v }) ∨ (r = .iterLimit ∧ t = { s with iterLimit := v }) ∨ t = s := by
  cases r with
  | cmd =>
    simp only [writeReg, writeCmd] at h
    cases hb : s.busy with
    | true => rw [hb] at h; cases h; simp
    | false =>
      cases hd : decode v with
      | illegal =>
        rw [hb, hd] at h
        cases h
        have := (decode_illegal_iff v).1 hd
        simp [this]
      | command i =>
        rw [hb, hd] at h
        have h' : exec i s = .next t := h
        rw [exec_idle i hb] at h'
        cases h'
        exact .inr (.inr (.inr (.inr (.inl ⟨i, rfl, rfl, encode_of_decode hd, rfl⟩))))
  | _ => cases h; simp

/-- An access that reaches a next state, past its response: nothing, or a legal write's effect on its register. -/
theorem access_next {a : Access} {s t : State} (h : (access a s).run = .next t) :
    SameBlock s t ∨ ∃ r v u, a = .write r.off 8 v ∧ SameBlock s u ∧ (writeReg r v u).run = .next t := by
  cases hl : legal a.off a.size with
  | false =>
    rw [access_illegal hl] at h
    cases h
    exact .inl (.rsp s _)
  | true =>
    cases a with
    | read off size => rw [access_read (by exact hl)] at h; cases h; exact .inl (.rsp s _)
    | write off size v =>
      rw [access_write (by exact hl), writeOff] at h
      cases hr : Reg.ofOff off with
      | none => rw [hr] at h; cases h; exact .inl (.rsp s _)
      | some r =>
        rw [hr] at h
        obtain ⟨rfl, -⟩ := (legal_iff _ _).1 hl
        have : r.off = off := beq_iff_eq.1 (List.find?_some (p := fun r : Reg => r.off == off) hr)
        subst this
        exact .inr ⟨r, v, _, rfl, .rsp s _, h⟩

/-- Everything a step that reaches a next state can have done to the block, with the access that did it. -/
inductive Effect (s : State) : State → Prop
  /-- nothing: a read, an ignored write, a bus error, host arithmetic, an idle engine -/
  | quiet {u} (h : SameBlock s u) : Effect s u
  /-- `rst` (R230) -/
  | reset {u} (h : SameBlock s u) (hr : resets s) : Effect s (resetBlock u)
  /-- the engine step of the command in flight (R183) -/
  | engine {u} (i : Instr) (h : SameBlock s u) (hm : engineMoves s) (ho : s.engOp = i.opcode) : Effect s (engineOf i u)
  /-- a write to `CTRL` (R34) -/
  | ctrl {u} (v : Word) (h : SameBlock s u) (ha : accessMade s = some (.write 0x08 8 v)) : Effect s (writeCtrl v u)
  /-- a write to `STATUS` (R35) -/
  | status {u} (v : Word) (h : SameBlock s u) (ha : accessMade s = some (.write 0x10 8 v)) : Effect s (writeStatus v u)
  /-- a write to `CMD` while busy (R185) -/
  | dropped {u} (v : Word) (h : SameBlock s u) (hb : s.busy = true) (ha : accessMade s = some (.write 0x18 8 v)) :
      Effect s { u with ovr := true }
  /-- the accept of an illegal word (R95) -/
  | illegal {u} (v : Word) (h : SameBlock s u) (hb : s.busy = false) (h8 : 8 ≤ v.toNat)
      (ha : accessMade s = some (.write 0x18 8 v)) : Effect s (acceptIllegal v u)
  /-- the accept of a command (R181) -/
  | accept {u} (i : Instr) (h : SameBlock s u) (hb : s.busy = false)
      (ha : accessMade s = some (.write 0x18 8 (encode i))) : Effect s (accept i (initOf i) u)
  /-- a write to an operand register or `ITER_LIMIT` (R42, R45) -/
  | opa {u} (v : Word) (h : SameBlock s u) (ha : accessMade s = some (.write 0x20 8 v)) : Effect s { u with opa := v }
  | opb {u} (v : Word) (h : SameBlock s u) (ha : accessMade s = some (.write 0x28 8 v)) : Effect s { u with opb := v }
  | opc {u} (v : Word) (h : SameBlock s u) (ha : accessMade s = some (.write 0x30 8 v)) : Effect s { u with opc := v }
  | iterLimit {u} (v : Word) (h : SameBlock s u) (ha : accessMade s = some (.write 0x48 8 v)) :
      Effect s { u with iterLimit := v }

/-- Every step that reaches a next state has one of these effects. -/
theorem step_effect {s t : State} (h : step s = .next t) : Effect s t := by
  rw [step] at h
  rcases turn_cases s with ⟨a, u, ha, hu, ht⟩ | ⟨hm, u, hu, ht⟩ | ⟨hr, u, hu, ht⟩ | ⟨u, hu, ht⟩ | ⟨e, ht⟩ <;> rw [ht] at h
  · rcases access_next h with k | ⟨r, v, w, rfl, k, hw⟩
    · exact .quiet (hu.trans k)
    · have k := hu.trans k
      rcases writeReg_next hw with ⟨rfl, rfl⟩ | ⟨rfl, rfl⟩ | ⟨rfl, hb, rfl⟩ | ⟨rfl, hb, h8, rfl⟩ | ⟨i, rfl, hb, rfl, rfl⟩ |
        ⟨rfl, rfl⟩ | ⟨rfl, rfl⟩ | ⟨rfl, rfl⟩ | ⟨rfl, rfl⟩ | rfl
      · exact .ctrl v k ha
      · exact .status v k ha
      · exact .dropped v k (k.busy ▸ hb) ha
      · exact .illegal v k (k.busy ▸ hb) h8 ha
      · exact .accept i k (k.busy ▸ hb) ha
      · exact .opa v k ha
      · exact .opb v k ha
      · exact .opc v k ha
      · exact .iterLimit v k ha
      · exact .quiet k
  · have hb : u.busy = true := by rw [hu.busy]; exact hm.1
    rw [engineTurn, if_pos hb] at h
    cases ho : Instr.ofOpcode u.engOp with
    | none => rw [ho] at h; cases h
    | some i =>
      rw [ho] at h
      rcases exec_next (show exec i u = .next t from h) with ⟨b, -⟩ | ⟨-, -, rfl⟩
      · rw [hb] at b; cases b
      · exact .engine i hu hm (by rw [← hu.engOp]; exact Instr.ofOpcode_some ho)
  · cases h; exact .reset hu hr
  · cases h; exact .quiet hu
  · cases h

end Sys2Proof.Machine
end

