-- ==== Sys2Proof/Machine/Encoding.lean ====
section
/-! DEFINITION. A host program's encoding where the block answers its reads (rule R98): the transactions it makes in a run
of the machine, under the interleaving that `events` gives (R14; log 1). -/

namespace Sys2Proof.Machine

/-- The next step is the host program's turn (R14; log 1). -/
def hostMoves (s : State) : Bool :=
  match s.events with
  | []             => !s.busy
  | .host :: _     => true
  | .access _ :: _ => false
  | .engine :: _   => false
  | .reset _ :: _  => false

/-- The bus transaction of the host program in the next step, if it makes one. -/
def programAccess (s : State) : Option Access := if hostMoves s then s.host.next.transaction else none

/-- The bus transactions of the host program in the next `n` steps of the machine, in order (R98). With no event listed a
command ends before the host goes on, so that each `WAIT` reads once, as in the lists of 95_test_vectors. -/
def programTransactions : Nat → State → List Access
  | 0, _     => []
  | n + 1, s =>
    (programAccess s).toList ++
      match step s with
      | .next t    => programTransactions n t
      | .fault _   => []
      | .refused _ => []

end Sys2Proof.Machine
end

