-- ==== Sys2Proof/Laws/HostProgram.lean ====
section
/-! SUPPORT. What one statement of a host program does, a program's transactions statement by statement, and that the
transactions of a run of the machine are an encoding of its host program. -/

namespace Sys2Proof.Machine

namespace HostState

variable {h : HostState}

/-- The statement the host runs next. -/
def At (h : HostState) (c : Stmt) : Prop := h.halted = false ∧ h.prog[h.pos]? = some c

/-- Past the statement. -/
def past (h : HostState) : HostState := { h with pos := h.pos + 1 }

theorem next_wr {r : Reg} {e : Expr} {x : Int} {w : Word} (c : h.At (.wr r e)) (he : e.eval h.vars = some x)
    (hw : wordOf x = some w) : h.next = .write r.off w h.past := by simp [next, c.1, c.2, he, hw, past]

theorem next_rd {t : Nat} {r : Reg} (c : h.At (.rd t r)) : h.next = .read r.off t h.past := by
  simp [next, c.1, c.2, past]

theorem next_set {t : Nat} {e : Expr} {x : Int} (c : h.At (.set t e)) (he : e.eval h.vars = some x) :
    h.next = .silent (h.past.setVar t x) := by simp [next, c.1, c.2, he, past]

theorem next_label {l : Nat} (c : h.At (.label l)) : h.next = .silent h.past := by simp [next, c.1, c.2, past]

theorem next_halt (c : h.At .halt) : h.next = .silent { h with halted := true } := by simp [next, c.1, c.2]

theorem goto_found {l p : Nat} (hp : h.prog.findIdx? (· == .label l) = some p) :
    h.goto l = .silent { h with pos := p } := by simp [goto, hp]

theorem next_goto {l : Nat} (c : h.At (.goto l)) : h.next = h.goto l := by simp [next, c.1, c.2]

theorem next_ifGoto {k : Cond} {l : Nat} {b : Bool} (c : h.At (.ifGoto k l)) (hk : k.eval h.vars = some b) :
    h.next = if b then h.goto l else .silent h.past := by
  cases b <;> simp [next, c.1, c.2, hk, past]

/-- Past its last statement a program has ended. -/
theorem next_end (hp : h.prog.length ≤ h.pos) : h.next = .idle := by simp [next, List.getElem?_eq_none hp]

/-! ## Transactions, by what the next statement does -/

theorem transactions_idle (e : h.next = .idle) (n : Nat) (vals : List Word) : h.transactions n vals = [] := by
  cases n <;> simp [transactions, e]

theorem transactions_silent {k : HostState} (e : h.next = .silent k) (n : Nat) (vals : List Word) :
    h.transactions (n + 1) vals = k.transactions n vals := by simp [transactions, e]

theorem transactions_write {k : HostState} {off : Nat} {v : Word} (e : h.next = .write off v k) (n : Nat)
    (vals : List Word) : h.transactions (n + 1) vals = .write off 8 v :: k.transactions n vals := by
  simp [transactions, e, Config.accessBytes]

theorem transactions_read {k : HostState} {off t : Nat} (e : h.next = .read off t k) (n : Nat) (v : Word)
    (vals : List Word) :
    h.transactions (n + 1) (v :: vals) = .read off 8 :: (k.setVar t v.toNat).transactions n vals := by
  simp [transactions, e, Config.accessBytes]

theorem transactions_read_last {k : HostState} {off t : Nat} (e : h.next = .read off t k) (n : Nat) :
    h.transactions (n + 1) [] = [.read off 8] := by simp [transactions, e, Config.accessBytes]

end HostState

/-! ## Runs of the machine -/

theorem accept_host (i : Instr) (s : State) : (accept i (initOf i) s).host = s.host := by
  cases hd : domainOk i s.opa s.opb s.opc with
  | false => rw [accept_bad _ hd]; simp
  | true => rw [accept_ok _ hd]; cases i <;> simp [initOf]

theorem exec_host {i : Instr} {s t : State} (h : exec i s = .next t) : t.host = s.host := by
  rcases exec_next h with ⟨-, rfl⟩ | ⟨-, -, rfl⟩
  · exact accept_host i s
  · obtain ⟨-, -, -, -, -, -, -, -, -, -, -, -, -, -, -, k⟩ := engineOf_keeps i s
    exact k

theorem writeCtrl_host (v : Word) (s : State) : (writeCtrl v s).host = s.host := by
  unfold writeCtrl
  dsimp only
  split <;> rfl

/-- No write to a register moves the host program. -/
theorem writeReg_host {r : Reg} {v : Word} {s t : State} (h : (writeReg r v s).run = .next t) : t.host = s.host := by
  rcases writeReg_next h with ⟨-, rfl⟩ | ⟨-, rfl⟩ | ⟨-, -, rfl⟩ | ⟨-, -, -, rfl⟩ | ⟨i, -, -, -, rfl⟩ |
    ⟨-, rfl⟩ | ⟨-, rfl⟩ | ⟨-, rfl⟩ | ⟨-, rfl⟩ | rfl
  · exact writeCtrl_host v s
  case inr.inr.inr.inr.inl => exact accept_host i s
  all_goals rfl

/-- No access by itself moves the host program. -/
theorem access_host {a : Access} {s t : State} (h : (access a s).run = .next t) : t.host = s.host := by
  unfold access at h
  split at h
  · cases a with
    | read off size => cases h; rfl
    | write off size v =>
      simp only [writeOff] at h
      split at h
      · have k := writeReg_host h
        exact k
      · cases h; rfl
  · cases h; rfl

theorem engineTurn_host {s t : State} (h : (engineTurn s).run = .next t) : t.host = s.host := by
  unfold engineTurn at h
  split at h
  · split at h
    · exact exec_host h
    · cases h
  · cases h; rfl

/-- A step that is not the host program's turn leaves it where it is. -/
theorem step_host_of_not_hostMoves {s t : State} (hm : hostMoves s = false) (h : step s = .next t) : t.host = s.host := by
  cases he : s.events with
  | nil =>
    have hb : s.busy = true := by simpa [hostMoves, he] using hm
    rw [show step s = (engineTurn s).run by simp [step, turn, he, hb]] at h
    exact engineTurn_host h
  | cons e es =>
    rw [step_event he] at h
    cases e with
    | access a => exact access_host (s := { s with events := es }) h
    | host => simp [hostMoves, he] at hm
    | engine => exact engineTurn_host (s := { s with events := es }) h
    | reset l => cases h; rfl

/-- A step that is the host program's turn, past the event that called it. -/
theorem step_of_hostMoves {s : State} (hm : hostMoves s = true) :
    ∃ es, step s = (hostTurn { s with events := es }).run := by
  cases he : s.events with
  | nil =>
    have hb : s.busy = false := by simpa [hostMoves, he] using hm
    have ht : turn s = hostTurn s := by simp [turn, he, hb]
    exact ⟨s.events, congrArg Turn.run ht⟩
  | cons e es =>
    cases e with
    | host => exact ⟨es, step_event he⟩
    | access a => simp [hostMoves, he] at hm
    | engine => simp [hostMoves, he] at hm
    | reset l => simp [hostMoves, he] at hm

/-- R98: whatever the interleaving, the transactions of the host program in a run of the machine are an encoding of it:
those of some number of its statements, for some values of its reads. -/
theorem programTransactions_eq_transactions (n : Nat) :
    ∀ s : State, ∃ m vals, programTransactions n s = s.host.transactions m vals := by
  induction n with
  | zero => exact fun s => ⟨0, [], rfl⟩
  | succ n ih =>
    intro s
    cases hm : hostMoves s with
    | false =>
      cases hs : step s with
      | next t =>
        obtain ⟨m, vals, e⟩ := ih t
        exact ⟨m, vals, by simp [programTransactions, programAccess, hm, hs, e, step_host_of_not_hostMoves hm hs]⟩
      | fault f => exact ⟨0, [], by simp [programTransactions, programAccess, hm, hs, HostState.transactions]⟩
      | refused r => exact ⟨0, [], by simp [programTransactions, programAccess, hm, hs, HostState.transactions]⟩
    | true =>
      obtain ⟨es, hs⟩ := step_of_hostMoves hm
      have unfolded : programTransactions (n + 1) s = (s.host.next.transaction).toList ++
          match (hostTurn { s with events := es }).run with
          | .next t    => programTransactions n t
          | .fault _   => []
          | .refused _ => [] := by
        simp only [programTransactions, programAccess, hm, if_true, hs]
        rfl
      rw [unfolded]
      simp only [hostTurn]
      cases e : s.host.next with
      | idle =>
        obtain ⟨m, vals, k⟩ := ih { s with events := es }
        exact ⟨m, vals, k⟩
      | silent h =>
        obtain ⟨m, vals, k⟩ := ih { s with events := es, host := h }
        exact ⟨m + 1, vals, k.trans (HostState.transactions_silent e m vals).symm⟩
      | write off v h =>
        dsimp only
        cases ha : (access (.write off Config.accessBytes v) { s with events := es, host := h }).run with
        | next t =>
          obtain ⟨m, vals, k⟩ := ih t
          rw [access_host ha] at k
          exact ⟨m + 1, vals, (congrArg _ k).trans (HostState.transactions_write e m vals).symm⟩
        | fault f => exact ⟨1, [], (HostState.transactions_write e 0 []).symm⟩
        | refused f => exact ⟨1, [], (HostState.transactions_write e 0 []).symm⟩
      | read off x h =>
        dsimp only
        generalize hu : ({ s with events := es, host := h.setVar x (readOff off { s with events := es }).toNat } : State) = u
        have hh : u.host = h.setVar x (readOff off { s with events := es }).toNat := by rw [← hu]
        cases ha : (access (.read off Config.accessBytes) u).run with
        | next t =>
          obtain ⟨m, vals, k⟩ := ih t
          rw [access_host ha, hh] at k
          exact ⟨m + 1, _ :: vals, (congrArg _ k).trans (HostState.transactions_read e m _ vals).symm⟩
        | fault f => exact ⟨1, [], (HostState.transactions_read_last e 0).symm⟩
        | refused f => exact ⟨1, [], (HostState.transactions_read_last e 0).symm⟩
      | stuck r => exact ⟨0, [], rfl⟩

end Sys2Proof.Machine
end

