-- ==== Sys2Proof/Laws/PerInstr.lean ====
section
/-! SUPPORT. The statements made per instruction: `RoundTrip`, about a command as syntax. -/

namespace Sys2Proof.Laws.RoundTrip

/-- The command is well formed, its word is one of the eight legal words (R93), and the word, and its eight byte lanes (R75),
decode to it (R94). -/
def Statement (i : Instr) : Prop :=
  i.wellFormed = true ∧ (encode i).toNat < 8 ∧ decode (encode i) = .command i ∧
    decodeBytes (Machine.lanes (encode i)) = .command i

theorem nop : Statement .nop := ⟨rfl, by decide, rfl, rfl⟩
theorem digits : Statement .digits := ⟨rfl, by decide, rfl, rfl⟩
theorem invchk : Statement .invchk := ⟨rfl, by decide, rfl, rfl⟩
theorem visitchk : Statement .visitchk := ⟨rfl, by decide, rfl, rfl⟩
theorem magic : Statement .magic := ⟨rfl, by decide, rfl, rfl⟩
theorem factor : Statement .factor := ⟨rfl, by decide, rfl, rfl⟩
theorem modinv : Statement .modinv := ⟨rfl, by decide, rfl, rfl⟩
theorem modpow : Statement .modpow := ⟨rfl, by decide, rfl, rfl⟩

end Sys2Proof.Laws.RoundTrip
end

