-- ==== Sys2Proof/Laws/Rho.lean ====
section
/-! SUPPORT. Why the search of `FACTOR` ends (R148): the map takes at most `n/2 + 1` values, so its orbit repeats within
`2^63` steps, and a checkpoint with a doubling batch meets every such repetition. -/

namespace Sys2Proof.Machine

/-- The map does not tell `x` from `n − x`. -/
theorem rhoMap_neg (p : Params) {n x : Nat} (h : x ≤ n) : rhoMap p n (n - x) = rhoMap p n x := by
  obtain ⟨y, rfl⟩ := Nat.exists_eq_add_of_le h
  rw [rhoMap, rhoMap, Nat.add_sub_cancel_left]
  rcases Nat.le_total x y with hxy | hxy
  · obtain ⟨d, rfl⟩ := Nat.exists_eq_add_of_le hxy
    rw [show (x + d) * (x + d) + p.c = x * x + p.c + (x + (x + d)) * d by ring, Nat.add_mul_mod_self_left]
  · obtain ⟨d, rfl⟩ := Nat.exists_eq_add_of_le hxy
    rw [show (y + d) * (y + d) + p.c = y * y + p.c + (y + d + y) * d by ring, Nat.add_mul_mod_self_left]

/-- An orbit of the map repeats within `n/2 + 1` steps. -/
theorem rhoMap_repeats (p : Params) {n : Nat} (hn : 1 ≤ n) (x : Nat → Nat) (hx : ∀ k, x (k + 1) = rhoMap p n (x k)) :
    ∃ m len, 1 ≤ len ∧ len ≤ n / 2 + 1 ∧ x (m + len) = x m := by
  -- the orbit from its second value on is the map of a number up to n/2
  have himg (k : Nat) : x (k + 2) ∈ (Finset.range (n / 2 + 1)).image (rhoMap p n) := by
    have hlt : x (k + 1) < n := by rw [hx]; exact rhoMap_lt p hn _
    rw [hx (k + 1), Finset.mem_image]
    by_cases h : x (k + 1) ≤ n / 2
    · exact ⟨x (k + 1), by simpa using by omega, rfl⟩
    · exact ⟨n - x (k + 1), by simp only [Finset.mem_range]; omega, rhoMap_neg p hlt.le⟩
  obtain ⟨i, hi, j, hj, hne, he⟩ := Finset.exists_ne_map_eq_of_card_lt_of_maps_to
    (s := Finset.range (n / 2 + 2)) (t := (Finset.range (n / 2 + 1)).image (rhoMap p n)) (f := fun k => x (k + 2))
    (lt_of_le_of_lt Finset.card_image_le (by simp)) (fun k _ => himg k)
  simp only [Finset.mem_range] at hi hj
  rcases Nat.lt_or_gt_of_ne hne with h | h
  · exact ⟨i + 2, j - i, by omega, by omega, by rw [show i + 2 + (j - i) = j + 2 by omega]; exact he.symm⟩
  · exact ⟨j + 2, i - j, by omega, by omega, by rw [show j + 2 + (i - j) = i + 2 by omega]; exact he⟩

/-- Once an orbit repeats it goes on doing so. -/
theorem orbit_periodic {f : Nat → Nat} {x : Nat → Nat} (hx : ∀ k, x (k + 1) = f (x k)) {m len : Nat}
    (h : x (m + len) = x m) : ∀ k, m ≤ k → x (k + len) = x k := by
  intro k hk
  obtain ⟨d, rfl⟩ := Nat.exists_eq_add_of_le hk
  induction d with
  | zero => exact h
  | succ d ih =>
    rw [show m + (d + 1) + len = m + d + len + 1 by omega, show m + (d + 1) = m + d + 1 by omega, hx, hx, ih (by omega)]

/-- How `RHO_Y`, `RHO_CNT` and `RHO_BATCH` move from one iteration to the next while no factor is found (R142, R147), on
sequences of numbers. -/
structure Batches (x y cnt batch : Nat → Nat) : Prop where
  inside : ∀ k, cnt k < batch k
  bound  : ∀ k, batch k ≤ 2 ^ 63
  next   : ∀ k,
    (cnt k + 1 ≠ batch k ∧ y (k + 1) = y k ∧ cnt (k + 1) = cnt k + 1 ∧ batch (k + 1) = batch k) ∨
    (cnt k + 1 = batch k ∧ y (k + 1) = x (k + 1) ∧ cnt (k + 1) = 0 ∧ batch (k + 1) = min (2 * batch k) (2 ^ 63))

variable {x y cnt batch : Nat → Nat}

/-- Batches go on ending. -/
theorem Batches.ends (h : Batches x y cnt batch) (k : Nat) : ∃ e, k ≤ e ∧ cnt e + 1 = batch e ∧ batch e = batch k := by
  induction hd : batch k - cnt k using Nat.strong_induction_on generalizing k with
  | _ d ih =>
    rcases h.next k with ⟨h1, -, h3, h4⟩ | ⟨h1, -⟩
    · have := h.inside k
      obtain ⟨e, a, b, c⟩ := ih (batch (k + 1) - cnt (k + 1)) (by omega) (k + 1) rfl
      exact ⟨e, by omega, b, by rw [c, h4]⟩
    · exact ⟨k, le_refl _, h1, rfl⟩

/-- After any time, some batch starts whose size is at least `min (2^j) 2^63`. -/
theorem Batches.grows (h : Batches x y cnt batch) (k j : Nat) :
    ∃ e, k ≤ e ∧ cnt e = 0 ∧ y e = x e ∧ min (2 ^ j) (2 ^ 63) ≤ batch e := by
  induction j with
  | zero =>
    obtain ⟨e, a, b, -⟩ := h.ends k
    rcases h.next e with ⟨c, -⟩ | ⟨-, c, d, f⟩
    · exact absurd b c
    · have := h.inside (e + 1)
      exact ⟨e + 1, by omega, d, c, by simp only [pow_zero]; omega⟩
  | succ j ih =>
    obtain ⟨e0, a0, -, -, d0⟩ := ih
    obtain ⟨e, a, b, g⟩ := h.ends e0
    rcases h.next e with ⟨c, -⟩ | ⟨-, c, d, f⟩
    · exact absurd b c
    · refine ⟨e + 1, by omega, d, c, ?_⟩
      rw [f, g, pow_succ]
      omega

/-- While a batch lasts its checkpoint stands. -/
theorem Batches.stands (h : Batches x y cnt batch) {k : Nat} (hk : cnt k = 0) :
    ∀ j, j < batch k → y (k + j) = y k ∧ cnt (k + j) = j ∧ batch (k + j) = batch k
  | 0, _ => ⟨rfl, hk, rfl⟩
  | j + 1, hj => by
    obtain ⟨a, b, c⟩ := h.stands hk j (by omega)
    rcases h.next (k + j) with ⟨-, h2, h3, h4⟩ | ⟨h1, -⟩
    · exact ⟨by rw [← add_assoc, h2, a], by rw [← add_assoc, h3, b], by rw [← add_assoc, h4, c]⟩
    · rw [b, c] at h1
      omega

/-- A sequence that repeats with a period up to `2^63` comes back to the checkpoint. -/
theorem Batches.meets (h : Batches x y cnt batch) {m len : Nat} (h1 : 1 ≤ len) (h2 : len ≤ 2 ^ 63)
    (hp : ∀ k, m ≤ k → x (k + len) = x k) : ∃ k, x (k + 1) = y k := by
  obtain ⟨e, a, b, c, d⟩ := h.grows m 63
  rw [min_self] at d
  obtain ⟨hy, -, -⟩ := h.stands b (len - 1) (by omega)
  exact ⟨e + (len - 1), by rw [show e + (len - 1) + 1 = e + len by omega, hp e a, hy, c]⟩

end Sys2Proof.Machine
end

