-- ==== Sys2Proof/Tests/Slice0.lean ====
section
/-! SUPPORT. Tests. Expected values come from the spec's vectors (95_test_vectors: V-…) and worked tables; words are written
out from the format of R90. The `witness_` theorems show a state that meets all hypotheses of a statement, clause by
clause. -/

namespace Sys2Proof.Tests

open Sys2Proof Sys2Proof.Machine

/-! ## Small states -/

/-- From reset, the events that come next, and the operand registers. -/
def idle (es : List Event) (a b c : Word) : State := { State.reset with events := es, opa := a, opb := b, opc := c }

/-- A command in flight with its snapshots. -/
def busy (i : Instr) (a b c : Word) : State :=
  { State.reset with busy := true, lastop := i.opcode, engOp := i.opcode, sa := a, sb := b, sc := c }

/-- `FACTOR` in flight right after its accept, without a limit. -/
def factoring (n : Word) : State := Spec.accepted .factor (idle [] n 0 0)

/-- `FACTOR n` in flight after `k` iterations, with the working values given (the columns of R150). -/
def factoringAt (n lim k x y batch cnt : Word) : State :=
  { factoring n with slim := lim, iterCount := k, rhoX := x, rhoY := y, rhoBatch := batch, rhoCnt := cnt }

def next? : Result → Option State
  | .next t    => some t
  | .fault _   => none
  | .refused _ => none

/-- The results, with `STATUS` as read, of a transition. -/
def results (o : Result) : Option (Word × Word × Word) := (next? o).map fun t => (t.res0, t.res1, statusWord t)

/-! ## WellFormed: each check refuses an ill-formed term -/

/-- R72: a size other than 8 (V-A5). -/
theorem test_access_size : Access.wellFormed (.write 0x20 4 5) = false := by decide

/-- R72: a misaligned offset (V-A4). -/
theorem test_access_misaligned : Access.wellFormed (.read 0x04 8) = false := by decide

/-- R72: outside the window; the last offset is legal. -/
theorem test_access_outside : Access.wellFormed (.read 0x100 8) = false ∧ Access.wellFormed (.read 0xF8 8) = true := by decide

/-- R96: a jump to a label that does not stand in the program, or stands in it twice. -/
theorem test_program_label :
    programWellFormed [.goto 1] = false ∧ programWellFormed [.label 1, .label 1, .goto 1] = false ∧
    programWellFormed [.label 1, .goto 1] = true := by decide

/-- R96: `expr` must lie in `[0, 2^64)`. -/
theorem test_program_constant :
    programWellFormed [.wr .opa (.num (2 ^ 64))] = false ∧ programWellFormed [.wr .opa (.num (-1))] = false ∧
    programWellFormed [.wr .opa (.num (2 ^ 64 - 1))] = true := by decide

theorem test_commands_wellFormed : Instr.all.all Instr.wellFormed = true := by decide

/-! ## Decode: the words of R93 in the format of R90, `RSVD` (56 bits) then `OPCODE` (8 bits) -/

theorem test_decode_nop : decode (0b0#56 ++ 0b00000000#8) = .command .nop := by decide
theorem test_decode_digits : decode (0b0#56 ++ 0b00000001#8) = .command .digits := by decide
theorem test_decode_invchk : decode (0b0#56 ++ 0b00000010#8) = .command .invchk := by decide
theorem test_decode_visitchk : decode (0b0#56 ++ 0b00000011#8) = .command .visitchk := by decide
theorem test_decode_magic : decode (0b0#56 ++ 0b00000100#8) = .command .magic := by decide
theorem test_decode_factor : decode (0b0#56 ++ 0b00000101#8) = .command .factor := by decide
theorem test_decode_modinv : decode (0b0#56 ++ 0b00000110#8) = .command .modinv := by decide
theorem test_decode_modpow : decode (0b0#56 ++ 0b00000111#8) = .command .modpow := by decide

/-- R95: opcodes from 0x08 on, and any `RSVD` bit. -/
theorem test_decode_illegal :
    decode 0x08 = .illegal ∧ decode 0xFF = .illegal ∧ decode 0x100 = .illegal ∧ decode 0x8000000000000005 = .illegal := by
  decide

/-- R75, R91: lane 0 of a command word carries the opcode; seven bytes are no command. -/
theorem test_decode_bytes :
    decodeBytes [5, 0, 0, 0, 0, 0, 0, 0] = .command .factor ∧ decodeBytes [0, 0, 0, 0, 0, 0, 0, 5] = .illegal ∧
    decodeBytes [5, 0, 0, 0, 0, 0, 0] = .illegal := by decide

/-! ## The commands, one step each -/

/-- V-N1. -/
theorem test_nop_accept : results (step (State.reset.withFetchWord 64 0x00)) = some (0, 0, 0x00000001) := by decide
theorem test_nop_completes : results (exec .nop (busy .nop 0 0 0)) = some (0, 0, 0x00000002) := by decide

/-- V-D3, V-D2. -/
theorem test_digits_order : results (exec .digits (busy .digits 2413 0 0)) = some (0x3142, 4, 0x00010002) := by decide
theorem test_digits_trailing_zero : results (exec .digits (busy .digits 10 0 0)) = some (0x1, 2, 0x00010002) := by decide

/-- V-D8e: the nibbles above `L` are ignored. V-D8c: a zero. -/
theorem test_invchk_length : results (exec .invchk (busy .invchk 0xF21 2 0)) = some (0, 0, 0x00020002) := by decide
theorem test_invchk_zero : results (exec .invchk (busy .invchk 0x1 2 0)) = some (1, 0, 0x00020002) := by decide

/-- V-D9i: back at 0 after `L` steps, but at step 2 too. V-D9f. -/
theorem test_visitchk_early : results (exec .visitchk (busy .visitchk 0x5413 4 0)) = some (0, 0, 0x00030002) := by decide
theorem test_visitchk_cycle : results (exec .visitchk (busy .visitchk 0x741 3 0)) = some (1, 0, 0x00030002) := by decide

/-- V-D12h, V-D12e. -/
theorem test_magic_yes : results (exec .magic (busy .magic 147 0 0)) = some (1, 0, 0x00040002) := by decide
theorem test_magic_traversal : results (exec .magic (busy .magic 12 0 0)) = some (0, 2, 0x00040002) := by decide

/-- R150, iteration 2: the batch of two ends, the checkpoint moves. -/
theorem test_factor_batch_end :
    (next? (exec .factor (factoringAt 3233 0 1 5 2 2 1))).map (fun t => (t.rhoX, t.rhoY, t.rhoBatch, t.rhoCnt, t.rhoD, t.busy)) =
      some (26, 26, 4, 0, 1, true) := by decide

/-- R150, iteration 8, and V-F1: 53 and 61. -/
theorem test_factor_found :
    results (exec .factor (factoringAt 3233 0 7 2688 968 8 1)) = some (53, 61, 0x00050002) := by decide

/-- V-I13: `e = −1` modulo 2^63. V-I9: `gcd(0, 5) = 5`. -/
theorem test_modinv_minus_one :
    results (exec .modinv (busy .modinv 0xFFFFFFFFFFFFFFFF 0x8000000000000000 0)) =
      some (0x7FFFFFFFFFFFFFFF, 0, 0x00060002) := by decide
theorem test_modinv_not_coprime : results (exec .modinv (busy .modinv 0 5 0)) = some (0, 0, 0x00060304) := by decide

/-- V-P1. V-P11: the square is above 2^127. -/
theorem test_modpow_encrypt : results (exec .modpow (busy .modpow 65 17 3233)) = some (2790, 0, 0x00070002) := by decide
theorem test_modpow_wide :
    results (exec .modpow (busy .modpow 0xFFFFFFFFFFFFFFFE 2 0xFFFFFFFFFFFFFFFF)) = some (1, 0, 0x00070002) := by decide

/-! ## The window, the host program, reset -/

/-- V-A8: `FACTOR` with `n = 0` fails at accept. -/
theorem test_accept_domain : results (step (State.reset.withFetchWord 64 0x05)) = some (0, 0, 0x00050204) := by decide

/-- V-N7: `LASTOP` is the low byte of an illegal word. -/
theorem test_accept_illegal :
    results (step (idle [.access (.write 0x18 8 0x108)] 0 0 0)) = some (0, 0, 0x00080104) := by decide

/-- V-N9: an abort, after the dropped command of V-N8. -/
theorem test_abort :
    results (step { factoring 1 with ovr := true, events := [.access (.write 0x08 8 4)] }) = some (0, 0, 0x0005050C) := by
  decide

/-- V-A7: bit 2 of `CTRL` reads 0, and an abort while idle does nothing. -/
theorem test_ctrl_reads_three :
    (next? (step (idle [.access (.write 0x08 8 7)] 0 0 0))).map (fun t => (ctrlWord t, statusWord t)) = some (3, 0) := by decide

/-- V-R1: the identity register. -/
theorem test_identity :
    (next? (step (idle [.access (.read 0x00 8)] 0 0 0))).map State.rsp = some (some (.data 0x5052483102100001)) := by decide

/-- R98: `FACTOR 3233` encodes as `W 0x20 0xCA1; W 0x18 0x5`. -/
theorem test_encode_program :
    encodeProgram 2 [] [] (Pseudo.factor (.num 3233)).expand = [.write 0x20 8 0xCA1, .write 0x18 8 0x5] := by decide

/-- P5, first lines: what `RD` reads, `INVCHK` writes (`dg` and `L` are variables 1 and 2). -/
theorem test_encode_read_then_written :
    encodeProgram 5 [0x3142, 4] [] (.rd 1 .res0 :: .rd 2 .res1 :: (Pseudo.invchk (.var 1) (.var 2)).expand) =
      [.read 0x38 8, .read 0x40 8, .write 0x20 8 0x3142, .write 0x28 8 4, .write 0x18 8 2] := by decide

/-- P2's loop on `k` (variable 1), 10 to 11: two transactions of `MAGIC k` a pass. -/
theorem test_encode_loop :
    encodeProgram 20 [] [] (.set 1 (.num 10) :: .label 0 :: (Pseudo.magic (.var 1)).expand ++
        [.set 1 (.add (.var 1) (.num 1)), .ifGoto (.le (.var 1) (.num 11)) 0, .halt]) =
      [.write 0x20 8 10, .write 0x18 8 4, .write 0x20 8 11, .write 0x18 8 4] := by decide

/-- P4, its last lines' `ABORT 3`. -/
theorem test_encode_abort : encodeProgram 1 [] [] (Pseudo.abort (.num 3)).expand = [.write 0x08 8 7] := by decide

/-- R97: `WAIT` polls again while bit 0 of `STATUS` is 1. -/
theorem test_wait_polls :
    HostState.next { prog := (Pseudo.wait 0 9).expand, pos := 2, vars := [(0, 0x00050001)], halted := false } =
      .silent { prog := (Pseudo.wait 0 9).expand, pos := 0, vars := [(0, 0x00050001)], halted := false } := by decide

/-- V-R2: reset abandons `FACTOR`. -/
theorem test_reset_abandons :
    (next? (step { factoring 3233 with events := [.reset none] })).map (fun t => (statusWord t, t.rhoX, t.opa)) =
      some (0, 0, 0) := by decide

/-! ## Witnesses: states with the invariant -/

theorem factoring_inv : Inv (factoringAt 3233 8 7 2688 968 8 1) := by
  constructor
  · exact fun _ => ⟨.factor, rfl, rfl⟩
  · exact fun _ => rfl
  · exact fun _ => ⟨rfl, rfl⟩
  · decide
  · exact fun _ => rfl
  · exact fun h => nomatch h
  · exact fun _ => ⟨rfl, rfl⟩
  · exact fun _ _ => ⟨by decide, by decide, by decide, ⟨3, by decide, by decide, rfl⟩, rfl, fun _ => by decide⟩
  · decide

theorem unlimited_inv : Inv (factoringAt 3233 0 7 2688 968 8 1) := by
  constructor
  · exact fun _ => ⟨.factor, rfl, rfl⟩
  · exact fun _ => rfl
  · exact fun _ => ⟨rfl, rfl⟩
  · decide
  · exact fun _ => rfl
  · exact fun h => nomatch h
  · exact fun _ => ⟨rfl, rfl⟩
  · exact fun _ _ => ⟨by decide, by decide, by decide, ⟨3, by decide, by decide, rfl⟩, rfl, fun h => absurd rfl h⟩
  · decide

/-- Any other command in flight on operands in its domain. -/
theorem busy_inv (i : Instr) (a b c : Word) (h : domainOk i a b c = true) (hf : i ≠ .factor) : Inv (busy i a b c) := by
  constructor
  · exact fun _ => ⟨i, rfl, h⟩
  · exact fun _ => rfl
  · exact fun _ => ⟨rfl, rfl⟩
  · exact fun h => nomatch h.1
  · exact fun _ => rfl
  · exact fun h => nomatch h
  · exact fun _ => ⟨rfl, rfl⟩
  · intro _ h
    cases i <;> first
      | exact absurd rfl hf
      | exact nomatch (show (_ : BitVec 8) = 0x05#8 from h)
  · rfl

/-! ## Witnesses: decoding and accept -/

theorem witness_DecodeIsTheOpcodeMap :
    let s := idle [.access (.write 0x18 8 0x108)] 0 0 0
    s.events = .access (.write 0x18 8 0x108) :: [] ∧ s.busy = false ∧ decode 0x108 = .illegal := by decide

theorem witness_DecodeEncodeAgree : Instr.wellFormed .modpow = true ∧ decode 0x7 = .command .modpow := by decide

theorem witness_StepRunsTheDecodedCommand_accept :
    let s := idle [.access (.write 0x18 8 0x6)] 3 11 0
    s.events = .access (.write 0x18 8 0x6) :: [] ∧ s.busy = false ∧ decode 0x6 = .command .modinv := by decide

theorem witness_StepRunsTheDecodedCommand_engine :
    let s := { busy .modpow 65 17 3233 with events := [.engine] }
    s.events = .engine :: [] ∧ s.busy = true ∧ s.engOp = Instr.modpow.opcode := by decide

theorem witness_StepRunsTheDecodedCommand_default :
    let s := busy .modpow 65 17 3233
    s.events = [] ∧ s.busy = true ∧ s.engOp = Instr.modpow.opcode := by decide

/-- R182 at the ends of each range, one pair a command. -/
theorem test_domain_ends :
    domainOk .nop 0 0 0 = true ∧
    domainOk .digits 0 0 0 = false ∧ domainOk .digits 1 0 0 = true ∧
    domainOk .digits 0x002386F26FC0FFFF 0 0 = true ∧ domainOk .digits 0x002386F26FC10000 0 0 = false ∧
    domainOk .magic 0 0 0 = false ∧ domainOk .magic 0x002386F26FC0FFFF 0 0 = true ∧
    domainOk .invchk 0x1 0 0 = false ∧ domainOk .invchk 0xA9 1 0 = true ∧ domainOk .invchk 0x1A 2 0 = false ∧
    domainOk .visitchk 0x9999999999999999 16 0 = true ∧ domainOk .visitchk 0x1 17 0 = false ∧
    domainOk .factor 0 1 1 = false ∧ domainOk .factor 1 0 0 = true ∧
    domainOk .modinv 1 0 1 = false ∧ domainOk .modinv 0 1 0 = true ∧
    domainOk .modpow 1 1 0 = false ∧ domainOk .modpow 0 0 1 = true := by decide

theorem witness_AcceptTransition_illegal :
    let s := idle [.access (.write 0x18 8 0x8)] 0 0 0
    s.events = .access (.write 0x18 8 0x8) :: [] ∧ s.busy = false ∧ 8 ≤ (0x8 : Word).toNat := by decide

theorem witness_AcceptTransition_domain :
    let s := idle [.access (.write 0x18 8 0x5)] 0 0 0
    s.events = .access (.write 0x18 8 0x5) :: [] ∧ s.busy = false ∧ (0x5 : Word) = encode .factor ∧
      ¬ Spec.domain .factor s.opa s.opb s.opc := ⟨rfl, rfl, rfl, fun h => absurd (show (1 : Nat) ≤ 0 from h) (by decide)⟩

theorem witness_AcceptTransition_accepted :
    let s := idle [.access (.write 0x18 8 0x5)] 1 0 0
    s.events = .access (.write 0x18 8 0x5) :: [] ∧ s.busy = false ∧ (0x5 : Word) = encode .factor ∧
      Spec.domain .factor s.opa s.opb s.opc := ⟨rfl, rfl, rfl, by show (1 : Nat) ≤ 1; decide⟩

theorem witness_CommandWhileBusyIsDropped :
    let s := { factoring 1 with events := [.access (.write 0x18 8 0)] }
    s.events = .access (.write 0x18 8 0) :: [] ∧ s.busy = true := by decide

theorem witness_ModinvByZeroFailsAtAccept :
    let s := idle [.access (.write 0x18 8 6)] 3 0 0
    s.events = .access (.write 0x18 8 6) :: [] ∧ s.busy = false ∧ s.opb = 0 := by decide

theorem witness_AcceptForgetsEarlierCommands :
    let s := idle [] 3233 0 0
    let t := { idle [] 3233 0 0 with rhoX := 7, slim := 9, sb := 4, err := true, errcode := 3, lastop := 6 }
    s.busy = false ∧ t.busy = false ∧ s.opa = t.opa ∧ s.opb = t.opb ∧ s.opc = t.opc ∧ s.iterLimit = t.iterLimit ∧
      (∃ s' t', exec .factor s = .next s' ∧ exec .factor t = .next t' ∧ s'.busy = true) :=
  ⟨rfl, rfl, rfl, rfl, rfl, rfl, _, _, rfl, rfl, rfl⟩

/-! ## Witnesses: the commands -/

theorem witness_NopCompletes : (busy .nop 0 0 0).busy = true := rfl

theorem witness_DigitsWritesTheSequence :
    let s := busy .digits 0x002386F26FC0FFFF 0 0
    s.busy = true ∧ 1 ≤ s.sa.toNat ∧ s.sa.toNat ≤ 10 ^ 16 - 1 := by decide

theorem witness_DigitsOfANumberGiveItBack :
    (busy .digits 10 0 0).busy = true ∧ ∃ t, exec .digits (busy .digits 10 0 0) = .next t := ⟨rfl, _, rfl⟩

theorem two_digits_valid (a b : Word) (h0 : Spec.digit a 0 ≠ 0) (h1 : Spec.digit a 1 ≠ 0)
    (hne : Spec.digit a 0 ≠ Spec.digit a 1) (hb : b = 2) : ¬ Spec.invalid (Spec.digit a) b.toNat := by
  subst hb
  rintro (⟨i, hi, h⟩ | ⟨i, j, hij, hj, h⟩)
  · rcases (show i = 0 ∨ i = 1 by have : i < 2 := hi; omega) with rfl | rfl
    · exact h0 h
    · exact h1 h
  · have : j < 2 := hj
    obtain rfl : j = 1 := by omega
    obtain rfl : i = 0 := by omega
    exact hne h

theorem witness_InvchkFindsZeroOrRepeat_bad :
    let s := busy .invchk 0x1 2 0
    s.busy = true ∧ Spec.domain .invchk s.sa s.sb s.sc ∧ Spec.invalid (Spec.digit s.sa) s.sb.toNat :=
  ⟨rfl, ⟨by decide, by decide, by decide⟩, .inl ⟨1, by decide, by decide⟩⟩

theorem witness_InvchkFindsZeroOrRepeat_good :
    let s := busy .invchk 0xF21 2 0
    s.busy = true ∧ Spec.domain .invchk s.sa s.sb s.sc ∧ ¬ Spec.invalid (Spec.digit s.sa) s.sb.toNat :=
  ⟨rfl, ⟨by decide, by decide, by decide⟩, two_digits_valid _ _ (by decide) (by decide) (by decide) rfl⟩

theorem witness_TenDigitsAreInvalid :
    let s := busy .invchk 0x0987654321 10 0
    s.busy = true ∧ Spec.domain .invchk s.sa s.sb s.sc ∧ 10 ≤ s.sb.toNat :=
  ⟨rfl, ⟨by decide, by decide, by decide⟩, by decide⟩

theorem witness_VisitchkFollowsTheTraversal_yes :
    let s := busy .visitchk 0x31 2 0
    s.busy = true ∧ Spec.domain .visitchk s.sa s.sb s.sc ∧ Spec.visits (Spec.digit s.sa) s.sb.toNat :=
  ⟨rfl, ⟨by decide, by decide, by decide⟩, by decide, fun k h1 h2 => by
    obtain rfl : k = 1 := by have : k < 2 := h2; omega
    decide⟩

theorem witness_VisitchkFollowsTheTraversal_no :
    let s := busy .visitchk 0x12 2 0
    s.busy = true ∧ Spec.domain .visitchk s.sa s.sb s.sc ∧ ¬ Spec.visits (Spec.digit s.sa) s.sb.toNat :=
  ⟨rfl, ⟨by decide, by decide, by decide⟩, fun h => absurd (h.2 1 (by decide) (by decide)) (by decide)⟩

theorem witness_VisitchkIsAFullCycle :
    (busy .visitchk 0x741 3 0).busy = true ∧ ∃ t, exec .visitchk (busy .visitchk 0x741 3 0) = .next t := ⟨rfl, _, rfl⟩

theorem witness_OneDigitVisitsAll :
    let s := busy .visitchk 0xF9 1 0
    let m := busy .magic 9 0 0
    s.busy = true ∧ s.sb = 1 ∧ Spec.digit s.sa 0 ≤ 9 ∧ m.busy = true ∧ 1 ≤ m.sa.toNat ∧ m.sa.toNat ≤ 9 := by decide

theorem two_digit_number {n : Nat} (h : 10 ≤ n) (h' : n < 100) : Spec.isDigitCount n 2 := by
  refine ⟨by omega, fun m hm => ?_⟩
  rcases (show m = 0 ∨ m = 1 ∨ 2 ≤ m by omega) with rfl | rfl | h
  · omega
  · omega
  · exact h

/-- 13 is magic, 12 fails the traversal, 11 repeats (R125). -/
theorem witness_MagicCombinesBothChecks_bad :
    let s := busy .magic 11 0 0
    s.busy = true ∧ 1 ≤ s.sa.toNat ∧ s.sa.toNat ≤ 10 ^ 16 - 1 ∧ Spec.isDigitCount s.sa.toNat 2 ∧
      Spec.invalid (Spec.decimalDigit s.sa.toNat 2) 2 :=
  ⟨rfl, by decide, by decide, two_digit_number (by decide) (by decide), .inr ⟨0, 1, by decide, by decide, by decide⟩⟩

theorem two_digits_distinct {d : Nat → Nat} (h0 : d 0 ≠ 0) (h1 : d 1 ≠ 0) (hne : d 0 ≠ d 1) : ¬ Spec.invalid d 2 := by
  rintro (⟨i, hi, h⟩ | ⟨i, j, hij, hj, h⟩)
  · rcases (show i = 0 ∨ i = 1 by omega) with rfl | rfl
    · exact h0 h
    · exact h1 h
  · obtain rfl : j = 1 := by omega
    obtain rfl : i = 0 := by omega
    exact hne h

theorem witness_MagicCombinesBothChecks_magic :
    let s := busy .magic 13 0 0
    s.busy = true ∧ 1 ≤ s.sa.toNat ∧ s.sa.toNat ≤ 10 ^ 16 - 1 ∧ Spec.isDigitCount s.sa.toNat 2 ∧
      ¬ Spec.invalid (Spec.decimalDigit s.sa.toNat 2) 2 ∧ Spec.visits (Spec.decimalDigit s.sa.toNat 2) 2 :=
  ⟨rfl, by decide, by decide, two_digit_number (by decide) (by decide),
    two_digits_distinct (by decide) (by decide) (by decide), by decide, fun k h1 h2 => by
      obtain rfl : k = 1 := by omega
      decide⟩

theorem witness_MagicCombinesBothChecks_fails :
    let s := busy .magic 12 0 0
    s.busy = true ∧ 1 ≤ s.sa.toNat ∧ s.sa.toNat ≤ 10 ^ 16 - 1 ∧ Spec.isDigitCount s.sa.toNat 2 ∧
      ¬ Spec.invalid (Spec.decimalDigit s.sa.toNat 2) 2 ∧ ¬ Spec.visits (Spec.decimalDigit s.sa.toNat 2) 2 :=
  ⟨rfl, by decide, by decide, two_digit_number (by decide) (by decide),
    two_digits_distinct (by decide) (by decide) (by decide), fun h => absurd h.1 (by decide)⟩

theorem witness_MagicIsTheDigitPipeline :
    ∃ td ti tv tm : State,
      exec .digits (busy .digits 147 0 0) = .next td ∧ (busy .magic 147 0 0).sa = (busy .digits 147 0 0).sa ∧
      (busy .invchk 0x741 3 0).sa = td.res0 ∧ (busy .invchk 0x741 3 0).sb = td.res1 ∧
      (busy .visitchk 0x741 3 0).sa = td.res0 ∧ (busy .visitchk 0x741 3 0).sb = td.res1 ∧
      exec .invchk (busy .invchk 0x741 3 0) = .next ti ∧ exec .visitchk (busy .visitchk 0x741 3 0) = .next tv ∧
      exec .magic (busy .magic 147 0 0) = .next tm :=
  ⟨_, _, _, _, rfl, rfl, by decide, by decide, by decide, by decide, rfl, rfl, rfl⟩

/-- R150: iterations 1 (the batch goes on), 2 (it ends) and 8 (the factor). -/
theorem witness_RhoIterationCases_on :
    let s := factoring 3233
    s.busy = true ∧ 1 ≤ s.sa.toNat ∧ ¬(s.slim ≠ 0 ∧ s.iterCount = s.slim) ∧
      Nat.gcd (max 5 s.rhoY.toNat - min 5 s.rhoY.toNat) s.sa.toNat = 1 ∧ s.rhoCnt + 1 ≠ s.rhoBatch := by decide

theorem witness_RhoIterationCases_batch :
    let s := factoringAt 3233 0 1 5 2 2 1
    s.busy = true ∧ 1 ≤ s.sa.toNat ∧ ¬(s.slim ≠ 0 ∧ s.iterCount = s.slim) ∧
      Nat.gcd (max 26 s.rhoY.toNat - min 26 s.rhoY.toNat) s.sa.toNat = 1 ∧ s.rhoCnt + 1 = s.rhoBatch := by decide

theorem witness_RhoIterationCases_found :
    let s := factoringAt 3233 8 7 2688 968 8 1
    s.busy = true ∧ 1 ≤ s.sa.toNat ∧ ¬(s.slim ≠ 0 ∧ s.iterCount = s.slim) ∧
      Nat.gcd (max 2823 s.rhoY.toNat - min 2823 s.rhoY.toNat) s.sa.toNat ≠ 1 := by decide

theorem witness_RhoIterationCases_limit :
    let s := factoringAt 3233 4 4 2477 26 4 2
    s.busy = true ∧ 1 ≤ s.sa.toNat ∧ s.slim ≠ 0 ∧ s.iterCount = s.slim := by decide

/-- V-F6: `ITER_LIMIT = 3`. -/
theorem witness_FactorStopsAtTheLimit :
    let s := factoringAt 3233 3 3 677 26 4 1
    s.busy = true ∧ 1 ≤ s.sa.toNat ∧ s.slim ≠ 0 ∧ s.iterCount = s.slim := by decide

theorem witness_FactorResultDivides :
    let s := factoringAt 3233 0 7 2688 968 8 1
    s.busy = true ∧ s.done = false ∧ (∃ t, exec .factor s = .next t ∧ t.done = true) ∧
      Nat.Prime 53 ∧ Nat.Prime 61 ∧ (53 : Nat) ≠ 61 ∧ s.sa.toNat = 53 * 61 :=
  ⟨rfl, rfl, ⟨_, rfl, by decide⟩, by norm_num, by norm_num, by decide, by decide⟩

theorem witness_FactorOneNeverEnds :
    let s := factoring 1
    s.busy = true ∧ s.engOp = Instr.factor.opcode ∧ s.sa = 1 ∧ s.slim = 0 := by decide

theorem witness_FactorEndsForEveryNumberFromTwo :
    let s := factoringAt 3233 0 7 2688 968 8 1
    Inv s ∧ s.busy = true ∧ s.engOp = Instr.factor.opcode ∧ 2 ≤ s.sa.toNat ∧ s.slim = 0 :=
  ⟨unlimited_inv, by decide⟩

theorem witness_FactorEndsWithinItsLimit :
    let s := factoringAt 3233 8 7 2688 968 8 1
    Inv s ∧ s.busy = true ∧ s.engOp = Instr.factor.opcode ∧ s.slim ≠ 0 := ⟨factoring_inv, by decide⟩

/-- `phi = 1`, a common factor, and a coprime pair at the largest modulus (V-I7, V-I10, V-I14). -/
theorem witness_ModinvWritesTheInverse_one : (busy .modinv 5 1 0).busy = true ∧ (busy .modinv 5 1 0).sb.toNat = 1 := by decide

theorem witness_ModinvWritesTheInverse_common :
    let s := busy .modinv 4 6 0
    s.busy = true ∧ 2 ≤ s.sb.toNat ∧ Nat.gcd (s.sa.toNat % s.sb.toNat) s.sb.toNat ≠ 1 := by decide

theorem witness_ModinvWritesTheInverse_coprime :
    let s := busy .modinv 7 0xFFFFFFFFFFFFFFFF 0
    s.busy = true ∧ 2 ≤ s.sb.toNat ∧ Nat.gcd (s.sa.toNat % s.sb.toNat) s.sb.toNat = 1 := by decide

theorem witness_ModpowWritesThePower :
    (busy .modpow 0 0 1).busy = true ∧ 1 ≤ (busy .modpow 0 0 1).sc.toNat := by decide

theorem witness_ModpowEdgeCases_zero :
    let s := busy .modpow 0 0 2
    s.busy = true ∧ s.sb = 0 ∧ 2 ≤ s.sc.toNat := by decide

theorem witness_ModpowEdgeCases_one : (busy .modpow 7 0 1).busy = true ∧ (busy .modpow 7 0 1).sc = 1 := by decide

/-- Program P1: p = 61, q = 53, e = 17, M = 65. -/
theorem witness_RsaRoundTrip :
    let s1 := busy .modpow 65 17 3233
    let s2 := busy .modinv 17 3120 0
    let s3 := busy .modpow 2790 2753 3233
    ∃ t1 t2 t3 : State, Nat.Prime 61 ∧ Nat.Prime 53 ∧ (61 : Nat) ≠ 53 ∧ 61 * 53 < 2 ^ 64 ∧
      s1.busy = true ∧ s2.busy = true ∧ s3.busy = true ∧ s1.sc.toNat = 61 * 53 ∧ s1.sa.toNat < 61 * 53 ∧
      s2.sa = s1.sb ∧ s2.sb.toNat = (61 - 1) * (53 - 1) ∧ Nat.Coprime s2.sa.toNat s2.sb.toNat ∧
      exec .modpow s1 = .next t1 ∧ exec .modinv s2 = .next t2 ∧
      s3.sa = t1.res0 ∧ s3.sb = t2.res0 ∧ s3.sc = s1.sc ∧ exec .modpow s3 = .next t3 :=
  ⟨_, _, _, by norm_num, by norm_num, by decide, by decide, rfl, rfl, rfl, by decide, by decide, rfl, by decide, by decide,
    rfl, rfl, by decide, by decide, rfl, rfl⟩

theorem witness_CommandsKeepHostRegisters : ∃ t, exec .modpow (busy .modpow 65 17 3233) = .next t := ⟨_, rfl⟩

theorem witness_OnlyFactorWritesRhoState :
    Instr.modpow ≠ .factor ∧ ∃ t, exec .modpow (busy .modpow 65 17 3233) = .next t := ⟨by decide, _, rfl⟩

/-- One step that goes on, one that ends the command. -/
theorem witness_EngineStepFrame_on :
    let s := factoring 3233
    s.busy = true ∧ s.done = false ∧ s.err = false ∧ ∃ t, exec .factor s = .next t ∧ t.busy = true :=
  ⟨rfl, rfl, rfl, _, rfl, by decide⟩

theorem witness_EngineStepFrame_end :
    let s := busy .modinv 0 5 0
    s.busy = true ∧ s.done = false ∧ s.err = false ∧ ∃ t, exec .modinv s = .next t ∧ t.busy = false :=
  ⟨rfl, rfl, rfl, _, rfl, by decide⟩

/-! ## Witnesses: accesses -/

/-- The first and last register, and the ends of the reserved range, are legal reads. -/
theorem witness_ReadsReturnRegistersWithoutEffect :
    ∀ off ∈ [0x00, 0x08, 0x10, 0x18, 0x20, 0x28, 0x30, 0x38, 0x40, 0x48, 0x50, 0x58, 0x60, 0x68, 0x70, 0xF8],
      (idle [.access (.read off 8)] 0 0 0).events = .access (.read off 8) :: [] ∧ legal off 8 = true := by decide

/-- A write that clears all, and one that clears nothing. -/
theorem witness_StatusWriteOneToClear :
    (idle [.access (.write 0x10 8 0xE)] 0 0 0).events = .access (.write 0x10 8 0xE) :: [] ∧
    (∀ i ∈ [1, 2, 3], (0xE : Word).getLsbD i = true ∧ (0xFFFFFFFFFFFFFFF1 : Word).getLsbD i = false) := by decide

theorem witness_CtrlWriteStoresThenAborts :
    let s := { factoring 1 with events := [.access (.write 0x08 8 6)] }
    let t := idle [.access (.write 0x08 8 3)] 0 0 0
    s.events = .access (.write 0x08 8 6) :: [] ∧ (6 : Word).getLsbD 2 = true ∧ s.busy = true ∧
    t.events = .access (.write 0x08 8 3) :: [] ∧ t.busy = false ∧ (3 : Word).getLsbD 2 = false := by decide

theorem witness_RegisterWrites :
    ∀ off ∈ [0x20, 0x28, 0x30, 0x48, 0x00, 0x38, 0x40, 0x50, 0x58, 0x60, 0x68],
      (idle [.access (.write off 8 5)] 0 0 0).events = .access (.write off 8 5) :: [] := by decide

/-- Words that differ in the reserved bits only. -/
theorem witness_ReservedReadZeroIgnoreWrites :
    (∀ off ∈ [0x70, 0xF8], off % 8 = 0 ∧ 0x70 ≤ off ∧ off ≤ 0xF8) ∧
    (∀ i < 3, (0x7 : Word).getLsbD i = (0xFFFFFFFFFFFFFFFF : Word).getLsbD i) ∧
    (∀ i ∈ [1, 2, 3], (0xE : Word).getLsbD i = (0xFFFFFFFFFFFFFFFF : Word).getLsbD i) := by decide

theorem witness_IllegalAccessIsABusError :
    ∀ a ∈ [Access.read 0x04 8, .write 0x20 4 5, .read 0xF9 8, .read 0x100 8],
      (idle [.access a] 0 0 0).events = .access a :: [] ∧ legal a.off a.size = false := by decide

theorem witness_IdentityRegister :
    (idle [.access (.write 0x00 8 0)] 0 0 0).events = .access (.write 0x00 8 0) :: [] := by decide

theorem witness_AccessesKeepTheCommandInFlight :
    let s := { factoring 3233 with events := [.access (.write 0x20 8 5)] }
    s.events = .access (.write 0x20 8 5) :: [] ∧ s.busy = true ∧ isAbort (.write 0x20 8 5) = false := by decide

/-- V-A12: `OPA` is overwritten before the engine's step. -/
theorem witness_ResultIndependentOfAccesses :
    let s := factoringAt 3233 8 7 2688 968 8 1
    Inv s ∧ s.busy = true ∧ (∀ a ∈ [Access.write 0x20 8 5, .write 0x18 8 0, .read 0x58 8], isAbort a = false) ∧
      ∃ t, step (Spec.engineNext s) = .next t := ⟨factoring_inv, rfl, by decide, _, rfl⟩

theorem witness_SoftwareCleanSequence :
    let s := { factoring 1 with events := [.access (.write 0x08 8 4), .access (.write 0x10 8 0xE)] }
    s.events = .access (.write 0x08 8 4) :: .access (.write 0x10 8 0xE) :: [] := by decide

/-! ## Witnesses: interrupt, reset, the whole machine -/

theorem witness_InterruptFollowsTheCommand_accept :
    Inv State.reset ∧ ∃ t, exec .nop State.reset = .next t ∧ t.busy = true := by
  refine ⟨?_, _, rfl, rfl⟩
  constructor
  · exact fun h => nomatch h
  · exact fun h => nomatch h
  · exact fun h => nomatch h
  · exact fun h => nomatch h.1
  · exact fun _ => rfl
  · exact fun h => nomatch h
  · exact fun h => h.elim (fun h => nomatch h) (fun h => nomatch h)
  · exact fun h => nomatch h
  · rfl

theorem witness_InterruptFollowsTheCommand_end :
    Inv (busy .modinv 0 5 0) ∧ ∃ t, exec .modinv (busy .modinv 0 5 0) = .next t ∧ t.busy = false :=
  ⟨busy_inv _ _ _ _ rfl (by decide), _, rfl, rfl⟩

theorem witness_ResetTransition :
    ({ factoring 3233 with events := [.reset (some (.write 0x20 8 5))] } : State).events =
      .reset (some (.write 0x20 8 5)) :: [] := rfl

theorem witness_EveryStepKeepsTheInvariant :
    ∃ t, Inv (factoringAt 3233 8 7 2688 968 8 1) ∧ step (factoringAt 3233 8 7 2688 968 8 1) = .next t :=
  ⟨_, factoring_inv, rfl⟩

theorem witness_BlockNeverStops : Inv (factoringAt 3233 8 7 2688 968 8 1) := factoring_inv

theorem witness_OneEngineStepEndsEveryOtherCommand :
    let s := busy .modpow 65 17 3233
    Inv s ∧ s.busy = true ∧ s.engOp ≠ Instr.factor.opcode := ⟨busy_inv _ _ _ _ rfl (by decide), rfl, by decide⟩

/-- An engine's turn and an access, in turn. -/
theorem witness_FairSchedulesEndEveryCommand :
    let σ : Nat → Event := fun k => if k % 2 = 0 then .access (.write 0x20 8 5) else .engine
    let s := factoringAt 3233 0 7 2688 968 8 1
    Fair σ ∧ (∀ k, σ k ≠ .host) ∧ Inv s ∧ s.busy = true ∧
      (s.engOp = Instr.factor.opcode → s.sa ≠ 1 ∨ s.slim ≠ 0) := by
  refine ⟨fun k => ⟨2 * k + 1, by omega, ?_⟩, fun k => ?_, unlimited_inv, rfl, fun _ => .inl (by decide)⟩
  · exact if_neg (by omega)
  · dsimp only
    split
    · exact fun h => nomatch h
    · exact fun h => nomatch h

/-- Each kind of step that a rule names: an accept, a completion, an abort, a reset, a clear, a write. -/
theorem witness_BusyChangesOnlyAs :
    (∃ t, step (idle [.access (.write 0x18 8 0)] 0 0 0) = .next t ∧ t.busy = true) ∧
    (∃ t, step (busy .nop 0 0 0) = .next t ∧ t.busy = false) ∧
    (∃ t, step { factoring 1 with events := [.access (.write 0x08 8 4)] } = .next t ∧ t.busy = false) ∧
    ∃ t, step { factoring 1 with events := [.reset none] } = .next t ∧ t.busy = false :=
  ⟨⟨_, rfl, rfl⟩, ⟨_, rfl, rfl⟩, ⟨_, rfl, rfl⟩, _, rfl, rfl⟩

theorem witness_DoneAndErrChangeOnlyAs :
    (∃ t, step (busy .nop 0 0 0) = .next t ∧ t.done = true) ∧
    (∃ t, step (busy .modinv 0 5 0) = .next t ∧ t.err = true) ∧
    (∃ t, step { State.reset with done := true, events := [.access (.write 0x10 8 2)] } = .next t ∧ t.done = false) ∧
    ∃ t, step { State.reset with err := true, errcode := 3, events := [.access (.write 0x18 8 0)] } = .next t ∧
      t.err = false :=
  ⟨⟨_, rfl, rfl⟩, ⟨_, rfl, rfl⟩, ⟨_, rfl, rfl⟩, _, rfl, rfl⟩

theorem witness_OvrAndLastopChangeOnlyAs :
    (∃ t, step { factoring 1 with events := [.access (.write 0x18 8 0)] } = .next t ∧ t.ovr = true) ∧
    (∃ t, step { State.reset with ovr := true, events := [.access (.write 0x10 8 8)] } = .next t ∧ t.ovr = false) ∧
    ∃ t, step (idle [.access (.write 0x18 8 0xFF)] 0 0 0) = .next t ∧ t.lastop = 0xFF :=
  ⟨⟨_, rfl, rfl⟩, ⟨_, rfl, rfl⟩, _, rfl, rfl⟩

theorem witness_HostRegistersChangeOnlyByTheirWrites :
    ¬ resets (idle [.access (.write 0x48 8 5)] 0 0 0) ∧
    (∃ t, step (idle [.access (.write 0x48 8 5)] 0 0 0) = .next t ∧ t.iterLimit = 5) ∧
    ∃ t, step (idle [.access (.write 0x08 8 2)] 0 0 0) = .next t ∧ t.ieErr = true :=
  ⟨(fun ⟨_, _, h⟩ => nomatch h), ⟨_, rfl, rfl⟩, _, rfl, rfl⟩

theorem witness_ResultsAndRhoChangeOnlyAs :
    ¬ resets (factoringAt 3233 0 7 2688 968 8 1) ∧
    ∃ t, step (factoringAt 3233 0 7 2688 968 8 1) = .next t ∧ t.res0 = 53 ∧ t.rhoX = 2823 :=
  ⟨(fun ⟨_, _, h⟩ => nomatch h), _, rfl, by decide, by decide⟩

/-! ## Witnesses: the host program -/

theorem witness_HostStatementsAreAccesses_write :
    let h := HostState.start (Pseudo.factor (.num 3233)).expand
    let s := { State.reset with events := [.host], host := h }
    s.events = .host :: [] ∧ h.halted = false ∧ h.prog[h.pos]? = some (.wr .opa (.num 3233)) ∧
      (Expr.num 3233).eval h.vars = some 3233 ∧ (0 : Int) ≤ 3233 ∧ (3233 : Int) < 2 ^ 64 := by decide

theorem witness_HostStatementsAreAccesses_read :
    let h := HostState.start [.rd 0 .status]
    let s := { State.reset with events := [.host], host := h }
    s.events = .host :: [] ∧ h.halted = false ∧ h.prog[h.pos]? = some (.rd 0 .status) := by decide

theorem witness_HostStatementsAreAccesses_set :
    let h := HostState.start [.set 0 (.num 5), .wr .opa (.var 0)]
    let s := { State.reset with events := [.host], host := h }
    s.events = .host :: [] ∧ h.halted = false ∧ h.prog[h.pos]? = some (.set 0 (.num 5)) ∧
      (Expr.num 5).eval h.vars = some 5 := by decide

theorem witness_HostStatementsAreAccesses_control :
    let h (p : Nat) : HostState := { HostState.start [.label 7, .goto 7, .ifGoto (.le (.num 0) (.num 0)) 7,
      .ifGoto (.lt (.num 0) (.num 0)) 7, .halt] with pos := p }
    let at' (p : Nat) (c : Stmt) : Prop := (h p).halted = false ∧ (h p).prog[(h p).pos]? = some c
    at' 0 (.label 7) ∧ at' 1 (.goto 7) ∧ (h 1).prog.findIdx? (· == .label 7) = some 0 ∧
      at' 2 (.ifGoto (.le (.num 0) (.num 0)) 7) ∧ (Cond.le (.num 0) (.num 0)).eval (h 2).vars = some true ∧
      at' 3 (.ifGoto (.lt (.num 0) (.num 0)) 7) ∧ (Cond.lt (.num 0) (.num 0)).eval (h 3).vars = some false ∧
      at' 4 .halt := by decide

theorem witness_PseudoInstructionsEncode :
    (Expr.num 65).eval [] = some (((65 : Word).toNat : Nat) : Int) ∧
      (Expr.num 3).eval [] = some (((3 : BitVec 2).toNat : Nat) : Int) ∧
      (0x00050001 : Word).getLsbD 0 = true ∧ (0x00050002 : Word).getLsbD 0 = false ∧
      3 * [(0x00050001 : Word)].length + 3 ≤ 6 := by decide

end Sys2Proof.Tests
end

section
/-! PROOFS. From a state with the invariant, no turn ends in a stop of the block itself (O51). -/

namespace Sys2Proof.Machine

variable {i : Instr} {s u : State}

/-- The invariant, read for the command that `ENG_OP` names: its snapshots are in its domain (R181). -/
theorem Inv.domainOk_of_engOp (h : Inv s) (hb : s.busy = true) (ho : s.engOp = i.opcode) :
    domainOk i s.sa s.sb s.sc = true := by
  obtain ⟨j, hj, hd⟩ := h.inFlight hb
  rwa [Instr.opcode_injective (ho.symm.trans hj)]

/-- The invariant gives the engine an arm for the command in flight (R183). -/
theorem Inv.ofOpcode_ne_none (h : Inv s) (hb : s.busy = true) : Instr.ofOpcode s.engOp ≠ none := by
  obtain ⟨i, hi, -⟩ := h.inFlight hb
  rw [hi, Instr.ofOpcode_opcode]
  exact Option.some_ne_none i

/-- Environment fields apart, the domain check on the snapshots reads the same. -/
theorem SameBlock.domainOk_snapshots (h : SameBlock s u) (i : Instr) :
    domainOk i u.sa u.sb u.sc = domainOk i s.sa s.sb s.sc := by rw [h.eq]

@[simp] theorem not_blockStop_next (t : State) : ¬ BlockStop (.next t) := id

@[simp] theorem not_blockStop_hostStuck (e : HostError) : ¬ BlockStop (.fault (.hostStuck e)) := id

/-- Every turn that the invariant allows runs without a stop of the block: an accept always answers, an engine step meets
operands in its domain, and `ENG_OP` always has an arm. -/
theorem TurnIs.not_blockStop {t : Turn} (h : Inv s) (k : TurnIs s t) : ¬ BlockStop t.run := by
  cases k with
  | quiet => exact not_blockStop_next _
  | dropped => exact not_blockStop_next _
  | illegal => exact not_blockStop_next _
  | ctrl => exact not_blockStop_next _
  | status => exact not_blockStop_next _
  | operand => exact not_blockStop_next _
  | reset => exact not_blockStop_next _
  | accept i hu hb =>
    rw [Turn.run, exec_idle i (hu.busy.trans hb)]
    exact not_blockStop_next _
  | engine i hu hb ho =>
    have hd := (hu.domainOk_snapshots i).trans (h.domainOk_of_engOp hb ho)
    rw [Turn.run, exec_busy (hu.busy.trans hb) hd]
    exact not_blockStop_next _
  | noCommand hb ho => exact absurd ho (h.ofOpcode_ne_none hb)
  | stuck e => exact not_blockStop_hostStuck e

/-- Settles O51: `step` runs the turn, and every turn from a state with the invariant is one of `TurnIs`. -/
theorem blockNeverStops : Obligations.BlockNeverStops := fun s h => (turn_spec s).not_blockStop h

end Sys2Proof.Machine
end

section
/-! PROOFS. What an accept, an engine step and a write to a register leave in the block, each said once for all eight
commands, in the form the statements about the state need. -/

namespace Sys2Proof.Machine

variable {i : Instr} {s t w : State}

/-- What the host alone writes (R34, R42, R45): the operand registers, `ITER_LIMIT` and the enables. -/
def hostRegs (s : State) : (Word × Word × Word × Word) × Bool × Bool :=
  ((s.opa, s.opb, s.opc, s.iterLimit), s.ieDone, s.ieErr)

/-- What only `FACTOR` writes (R44, R46, R47). -/
def rhoRegs (s : State) : (Word × Word × Word × Word) × Word × Word × Word :=
  ((s.rhoX, s.rhoY, s.rhoBatch, s.iterCount), s.slim, s.rhoCnt, s.rhoD)

/-- The host's side of the state is the same: its registers, `OVR` and the environment (R32, R39). -/
structure SameHostSide (s t : State) : Prop where
  regs : hostRegs t = hostRegs s
  ovr : t.ovr = s.ovr
  events : t.events = s.events
  rsp : t.rsp = s.rsp
  host : t.host = s.host

/-! ## Accept -/

theorem initOf_of_ne_factor (h : i ≠ .factor) : initOf i = id := by
  cases i with
  | factor => exact absurd rfl h
  | _ => rfl

/-- A command's own working registers are those of the rho engine. -/
theorem initOf_eq (i : Instr) (s : State) : initOf i s =
    { s with slim := (initOf i s).slim, iterCount := (initOf i s).iterCount, rhoX := (initOf i s).rhoX,
             rhoY := (initOf i s).rhoY, rhoBatch := (initOf i s).rhoBatch, rhoCnt := (initOf i s).rhoCnt,
             rhoD := (initOf i s).rhoD } := by cases i <;> rfl

/-- The two outcomes of an accept (R181): the command is in flight, or `ERR_DOMAIN`. -/
theorem accept_cases (i : Instr) (s : State) :
    (domainOk i s.opa s.opb s.opc = true ∧ accept i (initOf i) s = launch i (initOf i (beginAccept i.opcode s))) ∨
    (domainOk i s.opa s.opb s.opc = false ∧ accept i (initOf i) s = raiseErr errDomain (beginAccept i.opcode s)) := by
  cases hd : domainOk i s.opa s.opb s.opc with
  | true => exact .inl ⟨rfl, accept_ok _ hd⟩
  | false => exact .inr ⟨rfl, accept_bad _ hd⟩

theorem accept_busy (i : Instr) (s : State) : (accept i (initOf i) s).busy = domainOk i s.opa s.opb s.opc := by
  rcases accept_cases i s with ⟨hd, e⟩ | ⟨hd, e⟩ <;> rw [hd, e] <;> rfl

theorem accept_lastop (i : Instr) (s : State) : (accept i (initOf i) s).lastop = i.opcode := by
  rcases accept_cases i s with ⟨-, e⟩ | ⟨-, e⟩ <;> rw [e]
  · rw [initOf_eq]; rfl
  · rfl

theorem accept_done (i : Instr) (s : State) : (accept i (initOf i) s).done = false := by
  rcases accept_cases i s with ⟨-, e⟩ | ⟨-, e⟩ <;> rw [e]
  · rw [initOf_eq]; rfl
  · rfl

/-- R181, R193: after an accept `ERR` says that the command is not in flight, with `ERR_DOMAIN`. -/
theorem accept_err (i : Instr) (s : State) :
    ((accept i (initOf i) s).err = false ∧ (accept i (initOf i) s).errcode = 0) ∨
    ((accept i (initOf i) s).err = true ∧ (accept i (initOf i) s).busy = false ∧
      (accept i (initOf i) s).errcode = errDomain) := by
  rcases accept_cases i s with ⟨-, e⟩ | ⟨-, e⟩ <;> rw [e]
  · rw [initOf_eq]; exact .inl ⟨rfl, rfl⟩
  · exact .inr ⟨rfl, rfl, rfl⟩

theorem accept_results (i : Instr) (s : State) :
    (accept i (initOf i) s).res0 = 0 ∧ (accept i (initOf i) s).res1 = 0 := by
  rcases accept_cases i s with ⟨-, e⟩ | ⟨-, e⟩ <;> rw [e]
  · rw [initOf_eq]; exact ⟨rfl, rfl⟩
  · exact ⟨rfl, rfl⟩

theorem accept_sameHostSide (i : Instr) (s : State) : SameHostSide s (accept i (initOf i) s) := by
  rcases accept_cases i s with ⟨-, e⟩ | ⟨-, e⟩ <;> rw [e]
  · rw [initOf_eq]; exact ⟨rfl, rfl, rfl, rfl, rfl⟩
  · exact ⟨rfl, rfl, rfl, rfl, rfl⟩

theorem accept_rhoRegs (h : i ≠ .factor) (s : State) : rhoRegs (accept i (initOf i) s) = rhoRegs s := by
  rcases accept_cases i s with ⟨-, e⟩ | ⟨-, e⟩ <;> rw [e]
  · rw [initOf_of_ne_factor h]; rfl
  · rfl

/-! ## Engine step -/

/-- `w` is `s` but for the registers that a rho iteration moves (R142). -/
structure RhoMoved (s w : State) : Prop where
  eq : w = { s with rhoX := w.rhoX, rhoY := w.rhoY, rhoBatch := w.rhoBatch, iterCount := w.iterCount,
                    rhoCnt := w.rhoCnt, rhoD := w.rhoD }

theorem RhoMoved.refl (s : State) : RhoMoved s s := ⟨rfl⟩

theorem RhoMoved.done (h : RhoMoved s w) : w.done = s.done := by rw [h.eq]
theorem RhoMoved.err (h : RhoMoved s w) : w.err = s.err := by rw [h.eq]
theorem RhoMoved.errcode (h : RhoMoved s w) : w.errcode = s.errcode := by rw [h.eq]
theorem RhoMoved.res0 (h : RhoMoved s w) : w.res0 = s.res0 := by rw [h.eq]
theorem RhoMoved.res1 (h : RhoMoved s w) : w.res1 = s.res1 := by rw [h.eq]
theorem RhoMoved.host (h : RhoMoved s w) : w.host = s.host := by rw [h.eq]

/-- What an engine step can do, for all eight commands (R183): `FACTOR` goes on, the command completes, or it fails with
one of the codes 3 and 4. Only `FACTOR` moves the rho registers. -/
theorem engineOf_cases (i : Instr) (s : State) : ∃ w, RhoMoved s w ∧ (i ≠ .factor → w = s) ∧
    ((i = .factor ∧ engineOf i s = w) ∨ (∃ r0 r1, engineOf i s = finish r0 r1 w) ∨
      ∃ c ∈ [errNotCoprime, errLimit], engineOf i s = raiseErr c w) := by
  by_cases hf : i = .factor
  · subst hf
    cases hl : limitReached s with
    | true => exact ⟨s, .refl s, fun _ => rfl, .inr (.inr ⟨errLimit, by simp, rhoIteration_limit _ hl⟩)⟩
    | false =>
      rcases rhoIteration_cases Config.prh1 hl with ⟨-, -, e⟩ | ⟨-, -, e⟩ | ⟨-, e⟩
      · exact ⟨_, ⟨rfl⟩, fun h => absurd rfl h, .inl ⟨rfl, e⟩⟩
      · exact ⟨_, ⟨rfl⟩, fun h => absurd rfl h, .inl ⟨rfl, e⟩⟩
      · exact ⟨_, ⟨rfl⟩, fun h => absurd rfl h, .inr (.inl ⟨_, _, e⟩)⟩
  · refine ⟨s, .refl s, fun _ => rfl, .inr ?_⟩
    rcases engineOf_ends hf s with ⟨r0, r1, e⟩ | e | ⟨-, e⟩
    · exact .inl ⟨r0, r1, e⟩
    · exact .inl ⟨s.res0, s.res1, e⟩
    · exact .inr ⟨errNotCoprime, by simp, e⟩

theorem engineOf_sameHostSide (i : Instr) (s : State) : SameHostSide s (engineOf i s) := by
  obtain ⟨ha, hb, hc, hl, hd, he, ho, -, -, -, -, -, -, hv, hr, hh⟩ := engineOf_keeps i s
  exact ⟨by simp [hostRegs, ha, hb, hc, hl, hd, he], ho, hv, hr, hh⟩

theorem engineOf_lastop (i : Instr) (s : State) : (engineOf i s).lastop = s.lastop := by
  obtain ⟨-, -, -, -, -, -, -, -, -, -, -, -, h, -⟩ := engineOf_keeps i s
  exact h

theorem engineOf_rhoRegs (h : i ≠ .factor) (s : State) : rhoRegs (engineOf i s) = rhoRegs s := by
  obtain ⟨w, -, hw, ⟨hi, -⟩ | ⟨r0, r1, e⟩ | ⟨c, -, e⟩⟩ := engineOf_cases i s
  · exact absurd hi h
  · rw [e, hw h]; rfl
  · rw [e, hw h]; rfl

/-- R37, R184: an engine step sets `DONE` only as it ends the command. -/
theorem engineOf_done (i : Instr) (s : State) :
    (engineOf i s).done = s.done ∨ ((engineOf i s).done = true ∧ (engineOf i s).busy = false) := by
  obtain ⟨w, hw, -, ⟨-, e⟩ | ⟨r0, r1, e⟩ | ⟨c, -, e⟩⟩ := engineOf_cases i s <;> rw [e]
  · exact .inl (hw.done)
  · exact .inr ⟨rfl, rfl⟩
  · exact .inl (hw.done)

/-- R38, R193: an engine step sets `ERR` only as it ends the command, with a code. -/
theorem engineOf_err (i : Instr) (s : State) :
    (engineOf i s).err = s.err ∨
      ((engineOf i s).err = true ∧ (engineOf i s).busy = false ∧ (engineOf i s).errcode ≠ 0) := by
  obtain ⟨w, hw, -, ⟨-, e⟩ | ⟨r0, r1, e⟩ | ⟨c, hc, e⟩⟩ := engineOf_cases i s <;> rw [e]
  · exact .inl (hw.err)
  · exact .inl (hw.err)
  · have ne_zero : ∀ c ∈ [errNotCoprime, errLimit], c ≠ 0 := by decide
    exact .inr ⟨rfl, rfl, ne_zero c hc⟩

/-- R43: an engine step writes the results only as it completes the command. -/
theorem engineOf_results (i : Instr) (s : State) :
    ((engineOf i s).res0 = s.res0 ∧ (engineOf i s).res1 = s.res1) ∨
      ((engineOf i s).busy = false ∧ (engineOf i s).done = true) := by
  obtain ⟨w, hw, -, ⟨-, e⟩ | ⟨r0, r1, e⟩ | ⟨c, -, e⟩⟩ := engineOf_cases i s <;> rw [e]
  · exact .inl ⟨hw.res0, hw.res1⟩
  · exact .inr ⟨rfl, rfl⟩
  · exact .inl ⟨hw.res0, hw.res1⟩

/-! ## Writes to `CTRL` -/

/-- A write to `CTRL` (R34, R198): the enables first, and then the abort if bit 2 is set while busy. -/
theorem writeCtrl_cases (v : Word) (s : State) :
    let u := { s with ieDone := v.getLsbD 0, ieErr := v.getLsbD 1 }
    (v.getLsbD 2 = true ∧ s.busy = true ∧ writeCtrl v s = raiseErr errAborted u) ∨
    ((v.getLsbD 2 = false ∨ s.busy = false) ∧ writeCtrl v s = u) := by
  unfold writeCtrl
  cases hv : v.getLsbD 2 with
  | false => exact .inr ⟨.inl rfl, rfl⟩
  | true =>
    cases hb : s.busy with
    | false => exact .inr ⟨.inr rfl, if_neg (by simp)⟩
    | true => exact .inl ⟨rfl, rfl, if_pos (by simp)⟩

/-! ## The domain of a command -/

/-- The packed-digits domain, on the digits of R13 (R182). -/
theorem packedOk_iff (a b : Word) :
    packedOk a b = true ↔ 1 ≤ b.toNat ∧ b.toNat ≤ 16 ∧ ∀ j < b.toNat, Spec.digit a j ≤ 9 := by
  simp only [packedOk, unpack, Config.maxDigits, Spec.digit, extract_nibble, Bool.and_eq_true, decide_eq_true_eq,
    List.all_map, List.all_eq_true, List.mem_range, Function.comp_apply, and_assoc]

theorem decimalOk_iff (a : Word) : decimalOk a = true ↔ 1 ≤ a.toNat ∧ a.toNat ≤ 10 ^ 16 - 1 := by
  simp only [decimalOk, Config.maxDigits, Bool.and_eq_true, decide_eq_true_eq]

/-- R182: the check of the accept is the rule's table. -/
theorem domainOk_iff_domain (i : Instr) (a b c : Word) : domainOk i a b c = true ↔ Spec.domain i a b c := by
  cases i with
  | nop => exact iff_of_true rfl trivial
  | digits => exact decimalOk_iff a
  | invchk => exact packedOk_iff a b
  | visitchk => exact packedOk_iff a b
  | magic => exact decimalOk_iff a
  | factor => exact decide_eq_true_iff
  | modinv => exact decide_eq_true_iff
  | modpow => exact decide_eq_true_iff

end Sys2Proof.Machine
end

section
/-! PROOFS. The invariant `Inv` holds at reset (O49) and every step of every agent keeps it (O50). -/

namespace Sys2Proof.Machine

variable {s t u w : State}

/-! ## What the invariant reads -/

/-- The rho bounds speak of what the engine works on only. -/
theorem RhoInv.of_engineView_eq (h : RhoInv s) (hv : Spec.engineView t = Spec.engineView s) : RhoInv t := by
  simp only [Spec.engineView, Prod.mk.injEq] at hv
  obtain ⟨-, -, -, -, ⟨hsa, -, -, hslim⟩, hcount, hx, hy, hbatch, hcnt, hd⟩ := hv
  exact
    { xBound := by rw [hx, hsa]; exact h.xBound
      yBound := by rw [hy, hsa]; exact h.yBound
      cntBound := by rw [hcnt, hbatch]; exact h.cntBound
      batchPow := by rw [hbatch]; exact h.batchPow
      gcdOne := by rw [hd]; exact h.gcdOne
      limit := by rw [hslim, hcount]; exact h.limit }

/-- The invariant speaks of what the engine works on, of `DONE`, `ERR` and `ERRCODE`, and of the host's variables. This is
the form for a write that clears flags: `DONE` and `ERR` may fall, `ERRCODE` goes with `ERR`. -/
theorem Inv.of_flags_fall (h : Inv s) (hv : Spec.engineView t = Spec.engineView s) (hd : t.done = true → s.done = true)
    (he : (t.err = false ∧ t.errcode = 0) ∨ (t.err = s.err ∧ t.errcode = s.errcode)) (hw : t.host.vars.wf = true) :
    Inv t := by
  have err_of (x : t.err = true) : s.err = true ∧ t.errcode = s.errcode := by
    rcases he with ⟨e, -⟩ | ⟨e, c⟩
    · exact absurd x (ne_true_of_eq_false e)
    · exact ⟨e ▸ x, c⟩
  have hrho := fun k : RhoInv s => k.of_engineView_eq hv
  simp only [Spec.engineView, Prod.mk.injEq] at hv
  obtain ⟨hbusy, hlast, hop, ⟨hr0, hr1⟩, ⟨hsa, hsb, hsc, -⟩, -⟩ := hv
  exact
    { inFlight := by rw [hbusy, hop, hsa, hsb, hsc]; exact h.inFlight
      lastop := by rw [hbusy, hlast, hop]; exact h.lastop
      quiet := fun b => by
        obtain ⟨d, e⟩ := h.quiet (hbusy ▸ b)
        exact ⟨Bool.eq_false_iff.2 fun x => ne_true_of_eq_false d (hd x),
          Bool.eq_false_iff.2 fun x => ne_true_of_eq_false e (err_of x).1⟩
      exclusive := fun ⟨d, e⟩ => h.exclusive ⟨hd d, (err_of e).1⟩
      noCode := fun x => by
        rcases he with ⟨-, c⟩ | ⟨e, c⟩
        · exact c
        · exact c.trans (h.noCode (e ▸ x))
      code := fun x => by rw [(err_of x).2]; exact h.code (err_of x).1
      results := fun x => by
        rw [hr0, hr1]
        exact h.results (x.imp (fun b => hbusy ▸ b) fun e => (err_of e).1)
      rho := fun b o => hrho (h.rho (hbusy ▸ b) (hop ▸ o))
      hostVars := hw }

/-- A state that differs in what the invariant does not read. -/
theorem Inv.of_engineView_eq (h : Inv s) (hv : Spec.engineView t = Spec.engineView s) (hd : t.done = s.done)
    (he : t.err = s.err) (hc : t.errcode = s.errcode) (hw : t.host.vars.wf = true) : Inv t :=
  h.of_flags_fall hv (fun x => hd ▸ x) (.inr ⟨he, hc⟩) hw

theorem Inv.sameBlock (h : Inv s) (hu : SameBlock s u) : Inv u := by
  have hw := hu.vars h.hostVars
  rw [hu.eq] at hw ⊢
  exact h.of_engineView_eq rfl rfl rfl rfl hw

/-! ## States in which no command is in flight -/

/-- While idle only the flags, the results and the host's variables are bound. -/
theorem Inv.of_idle (hb : t.busy = false) (hx : ¬(t.done = true ∧ t.err = true)) (hn : t.err = false → t.errcode = 0)
    (hc : t.err = true → 1 ≤ t.errcode.toNat ∧ t.errcode.toNat ≤ 5) (hr : t.err = true → t.res0 = 0 ∧ t.res1 = 0)
    (hw : t.host.vars.wf = true) : Inv t := by
  have idle {p : Prop} (b : t.busy = true) : p := absurd b (ne_true_of_eq_false hb)
  exact ⟨idle, idle, idle, hx, hn, hc, fun x => x.elim idle hr, idle, hw⟩

/-- A failure (R193) of a command that has shown no result. -/
theorem inv_raiseErr {c : BitVec 4} (hc : 1 ≤ c.toNat ∧ c.toNat ≤ 5) (hd : s.done = false)
    (hr : s.res0 = 0 ∧ s.res1 = 0) (hw : s.host.vars.wf = true) : Inv (raiseErr c s) :=
  .of_idle rfl (by simp [hd]) (by simp) (fun _ => hc) (fun _ => hr) hw

/-- A completion (R184), whatever it writes. -/
theorem inv_finish (r0 r1 : Word) (he : s.err = false) (hc : s.errcode = 0) (hw : s.host.vars.wf = true) :
    Inv (finish r0 r1 s) :=
  .of_idle rfl (by simp [he]) (fun _ => hc) (by simp [he]) (by simp [he]) hw

theorem inv_resetBlock (h : s.host.vars.wf = true) : Inv (resetBlock s) :=
  .of_idle rfl (by simp [State.reset]) (fun _ => rfl) (by simp [State.reset]) (by simp [State.reset]) h

/-! ## Accept -/

theorem inv_acceptIllegal (v : Word) (h : s.host.vars.wf = true) : Inv (acceptIllegal v s) :=
  inv_raiseErr (by decide) rfl ⟨rfl, rfl⟩ h

/-- R140, R147: the rho registers start in their bounds. -/
theorem rhoInv_launch (s : State) : RhoInv (launch .factor (rhoStart Config.prh1 s)) where
  xBound := lt_max_of_lt_right (by decide : 2 < 3)
  yBound := lt_max_of_lt_right (by decide : 2 < 3)
  cntBound := (by decide : 0 < 2)
  batchPow := ⟨1, by decide, by decide, rfl⟩
  gcdOne := rfl
  limit := fun _ => Nat.zero_le _

/-- R181: a command in flight after its accept. -/
theorem inv_launch (i : Instr) (hd : domainOk i s.opa s.opb s.opc = true) (hw : s.host.vars.wf = true) :
    Inv (launch i (initOf i (beginAccept i.opcode s))) := by
  have hrho (ho : i.opcode = Instr.factor.opcode) : RhoInv (launch i (initOf i (beginAccept i.opcode s))) := by
    obtain rfl := Instr.opcode_injective ho
    exact rhoInv_launch _
  rw [initOf_eq] at hrho ⊢
  exact ⟨fun _ => ⟨i, rfl, hd⟩, fun _ => rfl, fun _ => ⟨rfl, rfl⟩, by simp, fun _ => rfl, by simp, fun _ => ⟨rfl, rfl⟩,
    fun _ => hrho, hw⟩

theorem inv_accept (i : Instr) (hw : s.host.vars.wf = true) : Inv (accept i (initOf i) s) := by
  rcases accept_cases i s with ⟨hd, e⟩ | ⟨-, e⟩ <;> rw [e]
  · exact inv_launch i hd hw
  · exact inv_raiseErr (by decide) rfl ⟨rfl, rfl⟩ hw

/-! ## Engine step -/

/-- R147: the batch size stays a power of two up to `2^63`. -/
theorem doubleBatch_pow {b : Word} (h : ∃ k, 1 ≤ k ∧ k ≤ 63 ∧ b.toNat = 2 ^ k) :
    ∃ k, 1 ≤ k ∧ k ≤ 63 ∧ (doubleBatch b).toNat = 2 ^ k := by
  obtain ⟨k, h1, h63, e⟩ := h
  have hmin : (doubleBatch b).toNat = min (2 ^ (k + 1)) (2 ^ 63) := by
    rw [doubleBatch, e, ← pow_succ', toNat_toWord (lt_of_le_of_lt (min_le_right _ _) (by decide))]
  rcases Nat.lt_or_eq_of_le h63 with h | rfl
  · exact ⟨k + 1, by omega, by omega, by rw [hmin, min_eq_left (Nat.pow_le_pow_right (by decide) (by omega))]⟩
  · exact ⟨63, by decide, le_refl _, by rw [hmin, min_eq_right (Nat.pow_le_pow_right (by decide) (by omega))]⟩

/-- R144: below the limit there is room for one more iteration. -/
theorem iterCount_succ_le {n l : Word} (h : l ≠ 0 → n.toNat ≤ l.toNat) (hne : ¬(l ≠ 0 ∧ n = l)) (hl : l ≠ 0) :
    (n + 1).toNat ≤ l.toNat := by
  have hlt : n.toNat < l.toNat := lt_of_le_of_ne (h hl) fun e => hne ⟨hl, BitVec.eq_of_toNat_eq e⟩
  bv_omega

/-- R142, R146, R147, R144: an iteration that does not end the command keeps the rho registers in their bounds. -/
theorem rhoInv_rhoIteration (h : RhoInv s) (hn : 1 ≤ s.sa.toNat) (hb : (rhoIteration Config.prh1 s).busy = true) :
    RhoInv (rhoIteration Config.prh1 s) := by
  cases hl : limitReached s with
  | true => rw [rhoIteration_limit _ hl] at hb; cases hb
  | false =>
    have hx : (rhoAdvance Config.prh1 s).rhoX.toNat < max s.sa.toNat 3 := by
      rw [rhoAdvance_x _ hn]
      exact lt_max_of_lt_left (rhoMap_lt _ hn _)
    have hlim : s.slim ≠ 0 → (s.iterCount + 1).toNat ≤ s.slim.toNat :=
      iterCount_succ_le h.limit (by simpa [limitReached] using hl)
    rcases rhoIteration_cases Config.prh1 hl with ⟨hd, hc, e⟩ | ⟨hd, -, e⟩ | ⟨-, e⟩ <;> rw [e] at hb ⊢
    · have hcnt : (s.rhoCnt + 1).toNat < s.rhoBatch.toNat := by
        have hc : s.rhoCnt + 1 ≠ s.rhoBatch := hc
        have := h.cntBound
        bv_omega
      exact ⟨hx, h.yBound, hcnt, h.batchPow, hd, hlim⟩
    · have hpow := doubleBatch_pow h.batchPow
      have hpos : 0 < (doubleBatch s.rhoBatch).toNat := by
        obtain ⟨k, -, -, hk⟩ := hpow
        exact hk ▸ Nat.two_pow_pos k
      exact ⟨hx, hx, hpos, hpow, hd, hlim⟩
    · cases hb

/-- R183: the engine step of the command in flight. -/
theorem Inv.engineOf {i : Instr} (h : Inv s) (hb : s.busy = true) (ho : s.engOp = i.opcode) : Inv (engineOf i s) := by
  obtain ⟨hdone, herr⟩ := h.quiet hb
  have hres := h.results (.inl hb)
  have hcode := h.noCode herr
  obtain ⟨w, hw, -, ⟨rfl, e⟩ | ⟨r0, r1, e⟩ | ⟨c, hc, e⟩⟩ := engineOf_cases i s
  · have hrho : w.busy = true → RhoInv w := fun b =>
      e ▸ rhoInv_rhoIteration (h.rho hb ho) ((domainOk_iff_domain .factor _ _ _).1 (h.domainOk_of_engOp hb ho))
        ((congrArg State.busy e).trans b)
    rw [e]
    rw [hw.eq] at hrho ⊢
    exact ⟨h.inFlight, h.lastop, h.quiet, h.exclusive, h.noCode, h.code, h.results, fun b _ => hrho b, h.hostVars⟩
  · rw [e]
    exact inv_finish _ _ (hw.err.trans herr) (hw.errcode.trans hcode) (by rw [hw.host]; exact h.hostVars)
  · have codes : ∀ c ∈ [errNotCoprime, errLimit], 1 ≤ c.toNat ∧ c.toNat ≤ 5 := by decide
    rw [e]
    exact inv_raiseErr (codes c hc) (hw.done.trans hdone) (by rwa [hw.res0, hw.res1]) (by rw [hw.host]; exact h.hostVars)

/-! ## Writes -/

theorem Inv.writeCtrl (h : Inv s) (v : Word) : Inv (writeCtrl v s) := by
  rcases writeCtrl_cases v s with ⟨-, hb, e⟩ | ⟨-, e⟩ <;> rw [e]
  · exact inv_raiseErr (by decide) (h.quiet hb).1 (h.results (.inl hb)) h.hostVars
  · exact h.of_engineView_eq rfl rfl rfl rfl h.hostVars

theorem Inv.writeStatus (h : Inv s) (v : Word) : Inv (writeStatus v s) := by
  refine h.of_flags_fall rfl (fun x => (Bool.and_eq_true_iff.1 x).1) ?_ h.hostVars
  cases hv : v.getLsbD 2 <;> simp only [Machine.writeStatus, hv]
  · exact .inr ⟨by simp, rfl⟩
  · exact .inl ⟨by simp, rfl⟩

/-- Every effect a step can have keeps the invariant. -/
theorem Effect.inv (k : Effect s t) (h : Inv s) : Inv t := by
  cases k with
  | quiet hu => exact h.sameBlock hu
  | reset hu => exact inv_resetBlock (hu.vars h.hostVars)
  | engine i hu hm ho => exact (h.sameBlock hu).engineOf (hu.busy.trans hm.1) (hu.engOp.trans ho)
  | ctrl v hu => exact (h.sameBlock hu).writeCtrl v
  | status v hu => exact (h.sameBlock hu).writeStatus v
  | illegal v hu => exact inv_acceptIllegal v (hu.vars h.hostVars)
  | accept i hu => exact inv_accept i (hu.vars h.hostVars)
  | dropped v hu | opa v hu | opb v hu | opc v hu | iterLimit v hu =>
    exact (h.sameBlock hu).of_engineView_eq rfl rfl rfl rfl (hu.vars h.hostVars)

/-- Settles O50: a step that reaches a next state has one of the effects of `Effect`, and each of them keeps `Inv`. -/
theorem everyStepKeepsTheInvariant : Obligations.EveryStepKeepsTheInvariant := fun _ _ h hs => (step_effect hs).inv h

/-- Settles O49: the reset state is what a reset makes of itself. -/
theorem resetHasInvariant : Obligations.ResetHasInvariant := inv_resetBlock (s := State.reset) rfl

end Sys2Proof.Machine
end

section
/-! PROOFS. What commands leave alone (O30, O31), what the host reads (O34, O40, O45, O48), and what one access does to the
state (O35, O36, O38, O41). -/

namespace Sys2Proof.Machine

variable {i : Instr} {s t : State}

/-! ## Commands -/

theorem exec_sameHostSide (h : exec i s = .next t) : SameHostSide s t := by
  rcases exec_next h with ⟨-, rfl⟩ | ⟨-, -, rfl⟩
  · exact accept_sameHostSide i s
  · exact engineOf_sameHostSide i s

theorem exec_rhoRegs (hi : i ≠ .factor) (h : exec i s = .next t) : rhoRegs t = rhoRegs s := by
  rcases exec_next h with ⟨-, rfl⟩ | ⟨-, -, rfl⟩
  · exact accept_rhoRegs hi s
  · exact engineOf_rhoRegs hi s

/-- Settles O30: neither the accept nor the engine step touches the host's side. -/
theorem commandsKeepHostRegisters : Obligations.CommandsKeepHostRegisters := by
  intro i s t h
  obtain ⟨hregs, hovr, hev, hrsp, hhost⟩ := exec_sameHostSide h
  simp only [hostRegs, Prod.mk.injEq] at hregs
  obtain ⟨⟨ha, hb, hc, hl⟩, hd, he⟩ := hregs
  exact ⟨ha, hb, hc, hl, hd, he, hovr, hev, hrsp, hhost⟩

/-- Settles O31: only `FACTOR` has working registers to start at its accept, and an iteration to make. -/
theorem onlyFactorWritesRhoState : Obligations.OnlyFactorWritesRhoState := by
  intro i s t hi h
  have hr := exec_rhoRegs hi h
  simp only [rhoRegs, Prod.mk.injEq] at hr
  obtain ⟨⟨hx, hy, hb, hn⟩, hl, hc, hd⟩ := hr
  exact ⟨hx, hy, hb, hn, hl, hc, hd⟩

/-! ## What the host reads -/

/-- Settles O34: the flag bits, then the fields. -/
theorem statusWordFields : Obligations.StatusWordFields := by
  intro s
  obtain ⟨h0, h1, h2, h3⟩ := statusWord_flags s
  exact ⟨h0, h1, h2, h3, statusWord_fields s⟩

/-- Settles O40: the constant's fields, and the write that no register takes. -/
theorem identityRegister : Obligations.IdentityRegister := by
  refine ⟨fun _ => ?_, fun s es v h => step_write .id h⟩
  simp only [readReg]
  decide

/-- Settles O45: the bits of `STATUS` and `CTRL` are the flags and the enables. -/
theorem interruptLevel : Obligations.InterruptLevel := by
  refine ⟨fun s => ?_, rfl⟩
  obtain ⟨-, hdone, herr, -⟩ := statusWord_flags s
  obtain ⟨hieDone, hieErr⟩ := ctrlWord_enables s
  rw [hdone, herr, hieDone, hieErr, irq]

theorem readReg_reset {r : Reg} (h : r ≠ .id) : readReg r State.reset = 0 := by
  cases r with
  | id => exact absurd rfl h
  | _ => rfl

theorem Reg.off_of_ofOff {off : Nat} {r : Reg} (h : Reg.ofOff off = some r) : r.off = off :=
  beq_iff_eq.1 (List.find?_some (p := fun r : Reg => r.off == off) h)

/-- R50, R51: after reset nothing but `ID` reads a value other than 0, reserved offsets included. -/
theorem readOff_reset {off : Nat} (h : off ≠ 0) : readOff off State.reset = 0 := by
  unfold readOff
  cases hr : Reg.ofOff off with
  | none => rfl
  | some r => exact readReg_reset fun e => h (by rw [← Reg.off_of_ofOff hr, e]; rfl)

/-- Settles O48: offset by offset, and the hidden registers by the reset state itself. -/
theorem resetStateReadsZero : Obligations.ResetStateReadsZero :=
  ⟨rfl, fun _ h => readOff_reset h, rfl, rfl, rfl, rfl, rfl, rfl, rfl, rfl, rfl⟩

/-! ## One access -/

/-- A write to `CTRL`, as one step. -/
theorem step_writeCtrl {es : List Event} {v : Word} (h : s.events = .access (.write 0x08 8 v) :: es) :
    step s = .next (writeCtrl v { s with events := es, rsp := some .written }) := step_write .ctrl h

/-- A write to `STATUS`, as one step. -/
theorem step_writeStatus {es : List Event} {v : Word} (h : s.events = .access (.write 0x10 8 v) :: es) :
    step s = .next (writeStatus v { s with events := es, rsp := some .written }) := step_write .status h

/-- Settles O35: the four fields of `writeStatus`, by the bit that clears each. -/
theorem statusWriteOneToClear : Obligations.StatusWriteOneToClear := by
  intro s es v h
  refine ⟨_, step_writeStatus h, ?_, ?_, ?_, ?_, ?_, ?_, rfl⟩ <;> intro hv <;> simp only [writeStatus, hv]
  · exact Bool.and_false _
  · exact Bool.and_true _
  · exact ⟨Bool.and_false _, rfl⟩
  · exact ⟨Bool.and_true _, rfl⟩
  · exact Bool.and_false _
  · exact Bool.and_true _

/-- Settles O36: the two cases of `writeCtrl`. -/
theorem ctrlWriteStoresThenAborts : Obligations.CtrlWriteStoresThenAborts := by
  intro s es v h
  rw [step_writeCtrl h]
  rcases writeCtrl_cases v { s with events := es, rsp := some .written } with ⟨hv, hb, e⟩ | ⟨hn, e⟩ <;> rw [e]
  · exact ⟨fun _ _ => rfl, fun b => absurd hb (ne_true_of_eq_false b), fun b => absurd hv (ne_true_of_eq_false b)⟩
  · exact ⟨fun a b => hn.elim (fun x => absurd a (ne_true_of_eq_false x)) fun x => absurd b (ne_true_of_eq_false x),
      fun _ => rfl, fun _ => rfl⟩

/-- R34: a write to `CTRL` looks at bits 0 to 2 only. -/
theorem writeCtrl_congr {v w : Word} (h : ∀ i < 3, v.getLsbD i = w.getLsbD i) (s : State) :
    writeCtrl v s = writeCtrl w s := by
  unfold writeCtrl
  rw [h 0 (by decide), h 1 (by decide), h 2 (by decide)]

/-- R35: a write to `STATUS` looks at bits 1 to 3 only. -/
theorem writeStatus_congr {v w : Word} (h : ∀ i ∈ [1, 2, 3], v.getLsbD i = w.getLsbD i) (s : State) :
    writeStatus v s = writeStatus w s := by
  unfold writeStatus
  rw [h 1 (by decide), h 2 (by decide), h 3 (by decide)]

theorem readOff_reserved {off : Nat} (h : 0x70 ≤ off) (s : State) : readOff off s = 0 := by
  simp only [readOff, Reg.ofOff_reserved h]

theorem writeOff_reserved {off : Nat} (h : 0x70 ≤ off) (v : Word) (s : State) :
    writeOff off v s = .finished (.next s) := by
  simp only [writeOff, Reg.ofOff_reserved h]

/-- Settles O38: no register stands at a reserved offset; the words read have no reserved bit set, and the writes look at
no reserved bit. -/
theorem reservedReadZeroIgnoreWrites : Obligations.ReservedReadZeroIgnoreWrites := by
  refine ⟨fun s es off h8 h70 hF8 => ?_, fun s i hi => ctrlWord_reserved s (by omega),
    fun s i hi => statusWord_reserved s hi, ?_, ?_⟩
  · have hl : legal off 8 = true := (legal_iff off 8).2 ⟨rfl, h8, hF8⟩
    refine ⟨fun h => ?_, fun v h => ?_⟩
    · rw [step_event h, turnOf, access_read hl, readOff_reserved h70]
      rfl
    · rw [step_event h, turnOf, access_write hl, writeOff_reserved h70]
      rfl
  · rintro s s' es v w h rfl hvw
    rw [step_writeCtrl h, step_writeCtrl rfl, writeCtrl_congr hvw]
  · rintro s s' es v w h rfl hvw
    rw [step_writeStatus h, step_writeStatus rfl, writeStatus_congr hvw]

/-- R42, R185, R188: while busy, no write to a register but an abort touches what the engine works on. -/
theorem writeReg_engineView {r : Reg} {v : Word} (hb : s.busy = true) (ha : r = .ctrl → v.getLsbD 2 = false) :
    ∃ t, (writeReg r v s).run = .next t ∧ t.events = s.events ∧ Spec.engineView t = Spec.engineView s := by
  cases r with
  | ctrl =>
    rcases writeCtrl_cases v s with ⟨hv, -⟩ | ⟨-, e⟩
    · exact absurd hv (ne_true_of_eq_false (ha rfl))
    · exact ⟨_, congrArg _ e, rfl, rfl⟩
  | cmd => exact ⟨{ s with ovr := true }, by simp [writeReg, writeCmd, hb, Turn.run], rfl, rfl⟩
  | _ => exact ⟨_, rfl, rfl, rfl⟩

/-- The same of any access: one that is no write to a register leaves the whole block. -/
theorem access_engineView {a : Access} (hb : s.busy = true) (ha : isAbort a = false) :
    ∃ t, (access a s).run = .next t ∧ t.events = s.events ∧ Spec.engineView t = Spec.engineView s := by
  cases hl : legal a.off a.size with
  | false => exact ⟨_, congrArg _ (access_illegal hl s), rfl, rfl⟩
  | true =>
    cases a with
    | read off size => exact ⟨_, congrArg _ (access_read hl s), rfl, rfl⟩
    | write off size v =>
      have hl : legal off size = true := hl
      rw [access_write hl, writeOff]
      cases hr : Reg.ofOff off with
      | none => exact ⟨_, rfl, rfl, rfl⟩
      | some r =>
        refine writeReg_engineView (s := { s with rsp := some .written }) hb ?_
        rintro rfl
        obtain rfl := Reg.off_of_ofOff hr
        simpa only [isAbort, hl, beq_self_eq_true, Bool.true_and] using ha

/-- Settles O41: the step is the access, past the event that calls it. -/
theorem accessesKeepTheCommandInFlight : Obligations.AccessesKeepTheCommandInFlight := by
  intro s es a h hb ha
  rw [step_event h]
  exact access_engineView (s := { s with events := es }) hb ha

end Sys2Proof.Machine
end

section
/-! PROOFS. What changes what (O54 to O58). For each field of the block one lemma says by which effects of a step, and how,
it can change; the statements are read off it. -/

namespace Sys2Proof.Machine

variable {s t u : State}

/-! ## The block's fields past the environment -/

theorem SameBlock.done (h : SameBlock s u) : u.done = s.done := by rw [h.eq]
theorem SameBlock.err (h : SameBlock s u) : u.err = s.err := by rw [h.eq]
theorem SameBlock.errcode (h : SameBlock s u) : u.errcode = s.errcode := by rw [h.eq]
theorem SameBlock.ovr (h : SameBlock s u) : u.ovr = s.ovr := by rw [h.eq]
theorem SameBlock.lastop (h : SameBlock s u) : u.lastop = s.lastop := by rw [h.eq]
theorem SameBlock.results (h : SameBlock s u) : u.res0 = s.res0 ∧ u.res1 = s.res1 := by rw [h.eq]; exact ⟨rfl, rfl⟩
theorem SameBlock.hostRegs (h : SameBlock s u) : hostRegs u = hostRegs s := by rw [h.eq]; rfl
theorem SameBlock.rhoRegs (h : SameBlock s u) : rhoRegs u = rhoRegs s := by rw [h.eq]; rfl

/-- Environment fields apart, the domain check on the operands reads the same. -/
theorem SameBlock.domainOk_operands (h : SameBlock s u) (i : Instr) :
    domainOk i u.opa u.opb u.opc = domainOk i s.opa s.opb s.opc := by rw [h.eq]

/-! ## The accesses that the rules name -/

/-- A write to `CMD` made while idle: an accept (R181). -/
def acceptsNow (s : State) : Prop := s.busy = false ∧ ∃ v : Word, accessMade s = some (.write 0x18 8 v)

/-- An abort of a command in flight (R198). -/
def abortsNow (s : State) : Prop :=
  s.busy = true ∧ ∃ v : Word, accessMade s = some (.write 0x08 8 v) ∧ v.getLsbD 2 = true

/-! ## `BUSY` (R36) -/

theorem Effect.busy (h : Effect s t) :
    t.busy = s.busy ∨
    (∃ i, s.busy = false ∧ accessMade s = some (.write 0x18 8 (encode i)) ∧ t.busy = domainOk i s.opa s.opb s.opc) ∨
    (s.busy = true ∧ engineMoves s) ∨ (t.busy = false ∧ (resets s ∨ abortsNow s)) := by
  cases h with
  | quiet hu | status v hu | dropped v hu | opa v hu | opb v hu | opc v hu | iterLimit v hu => exact .inl hu.busy
  | illegal v hu hb => exact .inl hb.symm
  | accept i hu hb ha => exact .inr (.inl ⟨i, hb, ha, (accept_busy i _).trans (hu.domainOk_operands i)⟩)
  | engine i hu hm => exact .inr (.inr (.inl ⟨hm.1, hm⟩))
  | reset hu hr => exact .inr (.inr (.inr ⟨rfl, .inl hr⟩))
  | ctrl v hu ha =>
    rcases writeCtrl_cases v _ with ⟨hv, hb, e⟩ | ⟨-, e⟩ <;> rw [e]
    · exact .inr (.inr (.inr ⟨rfl, .inr ⟨hu.busy ▸ hb, v, ha, hv⟩⟩))
    · exact .inl hu.busy

/-- Settles O54: what `Effect.busy` says of a rise and of a fall. -/
theorem busyChangesOnlyAs : Obligations.BusyChangesOnlyAs := by
  intro s t h
  rcases (step_effect h).busy with e | ⟨i, hb, ha, e⟩ | ⟨hb, hm⟩ | ⟨ht, hwhy⟩
  · rw [e]
    exact ⟨fun a b => absurd b (ne_true_of_eq_false a), fun a b => absurd a (ne_true_of_eq_false b)⟩
  · exact ⟨fun _ k => ⟨i, ha, (domainOk_iff_domain i _ _ _).1 (e.symm.trans k)⟩, fun k => absurd k (ne_true_of_eq_false hb)⟩
  · exact ⟨fun k => absurd hb (ne_true_of_eq_false k), fun _ _ => .inl hm⟩
  · exact ⟨fun _ k => absurd k (ne_true_of_eq_false ht), fun _ _ => .inr (hwhy.imp id fun ⟨_, v, ha, hv⟩ => ⟨v, ha, hv⟩)⟩

/-! ## `DONE` and `ERR` (R37, R38) -/

theorem Effect.done (h : Effect s t) :
    t.done = s.done ∨ (engineMoves s ∧ t.done = true ∧ t.busy = false) ∨
    (t.done = false ∧ (resets s ∨ acceptsNow s)) ∨
    ∃ v, accessMade s = some (.write 0x10 8 v) ∧ t.done = (s.done && !v.getLsbD 1) := by
  cases h with
  | quiet hu | dropped v hu | opa v hu | opb v hu | opc v hu | iterLimit v hu => exact .inl hu.done
  | ctrl v hu => rcases writeCtrl_cases v _ with ⟨-, -, e⟩ | ⟨-, e⟩ <;> rw [e] <;> exact .inl hu.done
  | engine i hu hm => exact (engineOf_done i _).imp (·.trans hu.done) fun ⟨hd, hb⟩ => .inl ⟨hm, hd, hb⟩
  | reset hu hr => exact .inr (.inr (.inl ⟨rfl, .inl hr⟩))
  | illegal v hu hb h8 ha => exact .inr (.inr (.inl ⟨rfl, .inr ⟨hb, v, ha⟩⟩))
  | accept i hu hb ha => exact .inr (.inr (.inl ⟨accept_done i _, .inr ⟨hb, _, ha⟩⟩))
  | status v hu ha => exact .inr (.inr (.inr ⟨v, ha, congrArg (· && _) hu.done⟩))

theorem Effect.err (h : Effect s t) :
    t.err = s.err ∨
    (t.err = true ∧ t.busy = false ∧ t.errcode ≠ 0 ∧ (engineMoves s ∨ acceptsNow s ∨ abortsNow s)) ∨
    (t.err = false ∧ t.errcode = 0 ∧ (resets s ∨ acceptsNow s)) ∨
    ∃ v, accessMade s = some (.write 0x10 8 v) ∧ t.err = (s.err && !v.getLsbD 2) ∧
      t.errcode = if v.getLsbD 2 then 0 else s.errcode := by
  cases h with
  | quiet hu | dropped v hu | opa v hu | opb v hu | opc v hu | iterLimit v hu => exact .inl hu.err
  | ctrl v hu ha =>
    rcases writeCtrl_cases v _ with ⟨hv, hb, e⟩ | ⟨-, e⟩ <;> rw [e]
    · exact .inr (.inl ⟨rfl, rfl, (by decide : errAborted ≠ 0), .inr (.inr ⟨hu.busy ▸ hb, v, ha, hv⟩)⟩)
    · exact .inl hu.err
  | engine i hu hm => exact (engineOf_err i _).imp (·.trans hu.err) fun ⟨he, hb, hc⟩ => .inl ⟨he, hb, hc, .inl hm⟩
  | reset hu hr => exact .inr (.inr (.inl ⟨rfl, rfl, .inl hr⟩))
  | illegal v hu hb h8 ha => exact .inr (.inl ⟨rfl, rfl, (by decide : errIllegal ≠ 0), .inr (.inl ⟨hb, v, ha⟩)⟩)
  | accept i hu hb ha =>
    rcases accept_err i _ with ⟨he, hc⟩ | ⟨he, hidle, hc⟩
    · exact .inr (.inr (.inl ⟨he, hc, .inr ⟨hb, _, ha⟩⟩))
    · exact .inr (.inl ⟨he, hidle, hc ▸ (by decide : errDomain ≠ 0), .inr (.inl ⟨hb, _, ha⟩)⟩)
  | status v hu ha =>
    exact .inr (.inr (.inr ⟨v, ha, congrArg (· && _) hu.err, congrArg (if v.getLsbD 2 then 0 else ·) hu.errcode⟩))

/-- The write of 1 that clears a flag. -/
theorem bit_of_cleared {a b : Bool} (ha : a = true) (h : (a && !b) = false) : b = true := by
  simpa [ha] using h

/-- A flag's write-one-to-clear raises nothing. -/
theorem not_raised {a b : Bool} {p : Prop} (ha : a = false) (h : (a && !b) = true) : p := by
  simp [ha] at h

theorem Effect.done_rises (h : Effect s t) (h0 : s.done = false) (h1 : t.done = true) :
    engineMoves s ∧ t.busy = false := by
  rcases h.done with e | ⟨hm, -, hb⟩ | ⟨e, -⟩ | ⟨v, -, e⟩
  · exact absurd (e.symm.trans h1) (ne_true_of_eq_false h0)
  · exact ⟨hm, hb⟩
  · exact absurd h1 (ne_true_of_eq_false e)
  · exact not_raised h0 (e.symm.trans h1)

theorem Effect.err_rises (h : Effect s t) (h0 : s.err = false) (h1 : t.err = true) :
    t.busy = false ∧ t.errcode ≠ 0 ∧ (engineMoves s ∨ acceptsNow s ∨ abortsNow s) := by
  rcases h.err with e | ⟨-, hb, hc, hwhy⟩ | ⟨e, -⟩ | ⟨v, -, e, -⟩
  · exact absurd (e.symm.trans h1) (ne_true_of_eq_false h0)
  · exact ⟨hb, hc, hwhy⟩
  · exact absurd h1 (ne_true_of_eq_false e)
  · exact not_raised h0 (e.symm.trans h1)

theorem Effect.done_falls (h : Effect s t) (h1 : s.done = true) (h0 : t.done = false) :
    resets s ∨ acceptsNow s ∨ ∃ v : Word, accessMade s = some (.write 0x10 8 v) ∧ v.getLsbD 1 = true := by
  rcases h.done with e | ⟨-, e, -⟩ | ⟨-, hwhy⟩ | ⟨v, ha, e⟩
  · exact absurd (e.trans h1) (ne_true_of_eq_false h0)
  · exact absurd e (ne_true_of_eq_false h0)
  · exact hwhy.imp id .inl
  · exact .inr (.inr ⟨v, ha, bit_of_cleared h1 (e.symm.trans h0)⟩)

theorem Effect.err_falls (h : Effect s t) (h1 : s.err = true) (h0 : t.err = false) :
    t.errcode = 0 ∧
      (resets s ∨ acceptsNow s ∨ ∃ v : Word, accessMade s = some (.write 0x10 8 v) ∧ v.getLsbD 2 = true) := by
  rcases h.err with e | ⟨e, -⟩ | ⟨-, hc, hwhy⟩ | ⟨v, ha, e, hc⟩
  · exact absurd (e.trans h1) (ne_true_of_eq_false h0)
  · exact absurd e (ne_true_of_eq_false h0)
  · exact ⟨hc, hwhy.imp id .inl⟩
  · have hv := bit_of_cleared h1 (e.symm.trans h0)
    exact ⟨hc.trans (if_pos hv), .inr (.inr ⟨v, ha, hv⟩)⟩

/-- Settles O55: each flag's rise and fall. -/
theorem doneAndErrChangeOnlyAs : Obligations.DoneAndErrChangeOnlyAs := fun _ _ h =>
  have k := step_effect h
  ⟨k.done_rises, k.err_rises, k.done_falls, k.err_falls⟩

/-! ## `OVR` and `LASTOP` (R39) -/

theorem Effect.ovr (h : Effect s t) :
    t.ovr = s.ovr ∨ (t.ovr = true ∧ s.busy = true ∧ ∃ v : Word, accessMade s = some (.write 0x18 8 v)) ∨
    (t.ovr = false ∧ resets s) ∨
    ∃ v, accessMade s = some (.write 0x10 8 v) ∧ t.ovr = (s.ovr && !v.getLsbD 3) := by
  cases h with
  | quiet hu | illegal v hu | opa v hu | opb v hu | opc v hu | iterLimit v hu => exact .inl hu.ovr
  | ctrl v hu => rcases writeCtrl_cases v _ with ⟨-, -, e⟩ | ⟨-, e⟩ <;> rw [e] <;> exact .inl hu.ovr
  | engine i hu => exact .inl ((engineOf_sameHostSide i _).ovr.trans hu.ovr)
  | accept i hu => exact .inl ((accept_sameHostSide i _).ovr.trans hu.ovr)
  | dropped v hu hb ha => exact .inr (.inl ⟨rfl, hb, v, ha⟩)
  | reset hu hr => exact .inr (.inr (.inl ⟨rfl, hr⟩))
  | status v hu ha => exact .inr (.inr (.inr ⟨v, ha, congrArg (· && _) hu.ovr⟩))

theorem Effect.ovr_rises (h : Effect s t) (h0 : s.ovr = false) (h1 : t.ovr = true) :
    s.busy = true ∧ ∃ v : Word, accessMade s = some (.write 0x18 8 v) := by
  rcases h.ovr with e | ⟨-, hwhy⟩ | ⟨e, -⟩ | ⟨v, -, e⟩
  · exact absurd (e.symm.trans h1) (ne_true_of_eq_false h0)
  · exact hwhy
  · exact absurd h1 (ne_true_of_eq_false e)
  · exact not_raised h0 (e.symm.trans h1)

theorem Effect.ovr_falls (h : Effect s t) (h1 : s.ovr = true) (h0 : t.ovr = false) :
    resets s ∨ ∃ v : Word, accessMade s = some (.write 0x10 8 v) ∧ v.getLsbD 3 = true := by
  rcases h.ovr with e | ⟨e, -⟩ | ⟨-, hr⟩ | ⟨v, ha, e⟩
  · exact absurd (e.trans h1) (ne_true_of_eq_false h0)
  · exact absurd e (ne_true_of_eq_false h0)
  · exact .inl hr
  · exact .inr ⟨v, ha, bit_of_cleared h1 (e.symm.trans h0)⟩

theorem Effect.lastop (h : Effect s t) (hne : t.lastop ≠ s.lastop) :
    (resets s ∧ t.lastop = 0) ∨
    (s.busy = false ∧ ∃ v : Word, accessMade s = some (.write 0x18 8 v) ∧ t.lastop = v.extractLsb' 0 8) := by
  cases h with
  | quiet hu | status v hu | dropped v hu | opa v hu | opb v hu | opc v hu | iterLimit v hu =>
    exact absurd hu.lastop hne
  | ctrl v hu =>
    rcases writeCtrl_cases v _ with ⟨-, -, e⟩ | ⟨-, e⟩ <;> rw [e] at hne <;> exact absurd hu.lastop hne
  | engine i hu => exact absurd ((engineOf_lastop i _).trans hu.lastop) hne
  | reset hu hr => exact .inl ⟨hr, rfl⟩
  | illegal v hu hb h8 ha => exact .inr ⟨hb, v, ha, rfl⟩
  | accept i hu hb ha => exact .inr ⟨hb, _, ha, (accept_lastop i _).trans (opcodeField_encode i).symm⟩

/-- Settles O56. -/
theorem ovrAndLastopChangeOnlyAs : Obligations.OvrAndLastopChangeOnlyAs := fun _ _ h =>
  have k := step_effect h
  ⟨k.ovr_rises, k.ovr_falls, k.lastop⟩

/-! ## The host's registers (R34, R42, R45) -/

theorem Effect.hostRegs (h : Effect s t) (hr : ¬ resets s) :
    Machine.hostRegs t = Machine.hostRegs s ∨
    (∃ v, accessMade s = some (.write 0x08 8 v) ∧
      Machine.hostRegs t = ((s.opa, s.opb, s.opc, s.iterLimit), v.getLsbD 0, v.getLsbD 1)) ∨
    (∃ v, accessMade s = some (.write 0x20 8 v) ∧
      Machine.hostRegs t = ((v, s.opb, s.opc, s.iterLimit), s.ieDone, s.ieErr)) ∨
    (∃ v, accessMade s = some (.write 0x28 8 v) ∧
      Machine.hostRegs t = ((s.opa, v, s.opc, s.iterLimit), s.ieDone, s.ieErr)) ∨
    (∃ v, accessMade s = some (.write 0x30 8 v) ∧
      Machine.hostRegs t = ((s.opa, s.opb, v, s.iterLimit), s.ieDone, s.ieErr)) ∨
    ∃ v, accessMade s = some (.write 0x48 8 v) ∧
      Machine.hostRegs t = ((s.opa, s.opb, s.opc, v), s.ieDone, s.ieErr) := by
  cases h with
  | quiet hu | status v hu | dropped v hu | illegal v hu => exact .inl hu.hostRegs
  | engine i hu => exact .inl ((engineOf_sameHostSide i _).regs.trans hu.hostRegs)
  | accept i hu => exact .inl ((accept_sameHostSide i _).regs.trans hu.hostRegs)
  | reset hu hr' => exact absurd hr' hr
  | ctrl v hu ha =>
    refine .inr (.inl ⟨v, ha, ?_⟩)
    rcases writeCtrl_cases v _ with ⟨-, -, e⟩ | ⟨-, e⟩ <;> rw [e, hu.eq] <;> rfl
  | opa v hu ha => exact .inr (.inr (.inl ⟨v, ha, by rw [hu.eq]; rfl⟩))
  | opb v hu ha => exact .inr (.inr (.inr (.inl ⟨v, ha, by rw [hu.eq]; rfl⟩)))
  | opc v hu ha => exact .inr (.inr (.inr (.inr (.inl ⟨v, ha, by rw [hu.eq]; rfl⟩))))
  | iterLimit v hu ha => exact .inr (.inr (.inr (.inr (.inr ⟨v, ha, by rw [hu.eq]; rfl⟩))))

/-- Settles O57: in each case of `Effect.hostRegs` the registers that can differ are the ones written. -/
theorem hostRegistersChangeOnlyByTheirWrites : Obligations.HostRegistersChangeOnlyByTheirWrites := by
  intro s t h hr
  rcases (step_effect h).hostRegs hr with e | ⟨v, ha, e⟩ | ⟨v, ha, e⟩ | ⟨v, ha, e⟩ | ⟨v, ha, e⟩ | ⟨v, ha, e⟩
  all_goals
    simp only [Machine.hostRegs, Prod.mk.injEq] at e
    obtain ⟨⟨hopa, hopb, hopc, hlim⟩, hieDone, hieErr⟩ := e
    simp [*]

/-! ## Results and rho registers (R43, R44, R46) -/

theorem Effect.results (h : Effect s t) (hr : ¬ resets s) :
    (t.res0 = s.res0 ∧ t.res1 = s.res1) ∨ (acceptsNow s ∧ t.res0 = 0 ∧ t.res1 = 0) ∨
    (engineMoves s ∧ t.busy = false ∧ t.done = true) := by
  cases h with
  | quiet hu | status v hu | dropped v hu | opa v hu | opb v hu | opc v hu | iterLimit v hu => exact .inl hu.results
  | ctrl v hu => rcases writeCtrl_cases v _ with ⟨-, -, e⟩ | ⟨-, e⟩ <;> rw [e] <;> exact .inl hu.results
  | reset hu hr' => exact absurd hr' hr
  | illegal v hu hb h8 ha => exact .inr (.inl ⟨⟨hb, v, ha⟩, rfl, rfl⟩)
  | accept i hu hb ha => exact .inr (.inl ⟨⟨hb, _, ha⟩, accept_results i _⟩)
  | engine i hu hm =>
    rcases engineOf_results i _ with ⟨h0, h1⟩ | k
    · exact .inl ⟨h0.trans hu.results.1, h1.trans hu.results.2⟩
    · exact .inr (.inr ⟨hm, k⟩)

theorem Effect.rhoRegs (h : Effect s t) (hr : ¬ resets s) :
    Machine.rhoRegs t = Machine.rhoRegs s ∨
    (s.busy = false ∧ accessMade s = some (.write 0x18 8 (encode .factor))) ∨
    (engineMoves s ∧ s.engOp = Instr.factor.opcode) := by
  cases h with
  | quiet hu | status v hu | dropped v hu | illegal v hu | opa v hu | opb v hu | opc v hu | iterLimit v hu =>
    exact .inl hu.rhoRegs
  | ctrl v hu => rcases writeCtrl_cases v _ with ⟨-, -, e⟩ | ⟨-, e⟩ <;> rw [e] <;> exact .inl hu.rhoRegs
  | reset hu hr' => exact absurd hr' hr
  | accept i hu hb ha =>
    by_cases hi : i = .factor
    · subst hi; exact .inr (.inl ⟨hb, ha⟩)
    · exact .inl ((accept_rhoRegs hi _).trans hu.rhoRegs)
  | engine i hu hm ho =>
    by_cases hi : i = .factor
    · subst hi; exact .inr (.inr ⟨hm, ho⟩)
    · exact .inl ((engineOf_rhoRegs hi _).trans hu.rhoRegs)

/-- Settles O58. -/
theorem resultsAndRhoChangeOnlyAs : Obligations.ResultsAndRhoChangeOnlyAs := by
  intro s t h hr
  have k := step_effect h
  constructor
  · intro hne
    rcases k.results hr with ⟨h0, h1⟩ | ⟨⟨hb, ha⟩, hz⟩ | hend
    · exact (hne.elim (· h0) (· h1)).elim
    · exact .inl ⟨hb, ha, hz⟩
    · exact .inr hend
  · intro hne
    refine (k.rhoRegs hr).resolve_left fun e => ?_
    simp only [Machine.rhoRegs, Prod.mk.injEq] at e
    obtain ⟨⟨hx, hy, hb, hn⟩, -⟩ := e
    rcases hne with d | d | d | d
    · exact d hx
    · exact d hy
    · exact d hb
    · exact d hn

end Sys2Proof.Machine
end

section
/-! PROOFS. The window as memory: legal reads (O33), the writes to the registers that take or ignore one (O37), illegal
accesses (O39), and the byte lanes (O44). -/

namespace Sys2Proof.Machine

variable {s : State} {es : List Event} {off : Nat}

/-! ## Reads -/

/-- A legal read at any offset, reserved ones included, as one step (R73). -/
theorem step_legalRead (h : s.events = .access (.read off 8) :: es) (hl : legal off 8 = true) :
    step s = .next { s with events := es, rsp := some (.data (readOff off { s with events := es })) } := by
  rw [step_event h, turnOf, access_read hl]
  rfl

theorem readOff_of_eq (s : State) (r : Reg) (h : off = r.off) : readOff off s = readReg r s := by
  rw [h, readOff_off]

/-- Settles O33: the value answered is `readOff`'s, read off the register that stands at the offset. -/
theorem readsReturnRegistersWithoutEffect : Obligations.ReadsReturnRegistersWithoutEffect := by
  intro s es off h hl
  have reads := readOff_of_eq (off := off) { s with events := es }
  refine ⟨_, step_legalRead h hl, reads .id, fun hoff => ?ctrl, reads .status, reads .cmd, reads .opa, reads .opb,
    reads .opc, reads .res0, reads .res1, reads .iterLimit, reads .iterCount, reads .rhoX, reads .rhoY, reads .rhoBatch,
    fun h70 => readOff_reserved h70 _⟩
  case ctrl =>
    rw [reads .ctrl hoff]
    obtain ⟨hdone, herr⟩ := ctrlWord_enables { s with events := es }
    exact ⟨hdone, herr, fun _ hi => ctrlWord_reserved _ hi⟩

/-! ## Writes -/

theorem step_write_of_eq {v : Word} (h : s.events = .access (.write off 8 v) :: es) (r : Reg) (hoff : off = r.off) :
    step s = (writeReg r v { s with events := es, rsp := some .written }).run := by
  subst hoff
  exact step_write r h

/-- The registers that ignore a write (R74). -/
def Reg.readOnly : List Reg := [.id, .res0, .res1, .iterCount, .rhoX, .rhoY, .rhoBatch]

theorem writeReg_readOnly {r : Reg} (h : r ∈ Reg.readOnly) (v : Word) (s : State) :
    writeReg r v s = .finished (.next s) := by
  simp only [Reg.readOnly, List.mem_cons, List.not_mem_nil, or_false] at h
  rcases h with rfl | rfl | rfl | rfl | rfl | rfl | rfl <;> rfl

/-- Settles O37: the four registers that store the value, and the offsets of those that ignore it. -/
theorem registerWrites : Obligations.RegisterWrites := by
  intro s es off v h
  have writes := step_write_of_eq h
  refine ⟨writes .opa, writes .opb, writes .opc, writes .iterLimit, fun hmem => ?readOnly⟩
  case readOnly =>
    obtain ⟨r, hr, hoff⟩ : ∃ r ∈ Reg.readOnly, r.off = off := List.mem_map.1 hmem
    rw [writes r hoff.symm, writeReg_readOnly hr]
    rfl

/-! ## Illegal accesses -/

/-- An illegal access, as one step (R72). -/
theorem step_illegalAccess {a : Access} (h : s.events = .access a :: es) (hl : legal a.off a.size = false) :
    step s = .next { s with events := es, rsp := some (.busError a.off a.size) } := by
  rw [step_event h, turnOf, access_illegal hl]
  rfl

/-- Settles O39: an access that is not legal reaches no register; its response carries the data 0. -/
theorem illegalAccessIsABusError : Obligations.IllegalAccessIsABusError :=
  ⟨legal_iff, fun _ _ _ h hl => ⟨step_illegalAccess h hl, fun _ _ _ => rfl⟩⟩

/-! ## Byte lanes -/

@[simp] theorem lanes_length (v : Word) : (lanes v).length = 8 := by
  rw [lanes, List.length_map, List.length_range]

/-- R75: bit `j` of lane `k` is bit `8k + j` of the register. -/
theorem lane_getLsbD {j : Nat} (hj : j < 8) (k : Nat) (v : Word) : (lane k v).getLsbD j = v.getLsbD (8 * k + j) := by
  rw [lane, BitVec.getLsbD_extractLsb', decide_eq_true hj, Bool.true_and]

/-- Settles O44: the lanes read back, their number, and each lane bit by bit. -/
theorem byteLanesAreLittleEndian : Obligations.ByteLanesAreLittleEndian := fun v =>
  ⟨ofLanes_lanes v, lanes_length v, fun k _ _ hj => lane_getLsbD hj k v⟩

end Sys2Proof.Machine
end

section
/-! PROOFS. The opcode map (O1), decode and encode (O2, O3). -/

namespace Sys2Proof

open Machine

/-- The decoder on a word's eight byte lanes is the decoder on the word (R75, R91). -/
@[simp] theorem decodeBytes_lanes (v : Word) : decodeBytes (lanes v) = decode v := by
  rw [decodeBytes, if_pos (lanes_length v), ofLanes_lanes, toWord, BitVec.ofNat_toNat, BitVec.setWidth_eq]

/-- A table word of 64 bits is decoded as the command word it is. -/
theorem decodeTableWord_of_lt {w : Nat} (h : w < 2 ^ 64) : decodeTableWord 64 w = (decode (toWord w)).toOption := by
  simp only [decodeTableWord, Nat.mod_eq_of_lt h, if_pos h, decodeBytes_lanes]

namespace Machine

/-- The write of an illegal word to an idle block, as one step (R181, R95). -/
theorem step_illegalWord {s : State} {es : List Event} {v : Word} (h : s.events = .access (.write 0x18 8 v) :: es)
    (hb : s.busy = false) (hd : decode v = .illegal) :
    step s = .next (acceptIllegal v { s with events := es, rsp := some .written }) := by
  rw [step_write .cmd h]
  simp [writeReg, writeCmd, hb, hd, Turn.run]

/-- Settles O1: a word either is the encoding of the command it decodes to, or is illegal and then at least 8. -/
theorem decodeIsTheOpcodeMap : Obligations.DecodeIsTheOpcodeMap := by
  refine ⟨fun v => ?map, fun s es v h hb hd => step_illegalWord h hb hd⟩
  case map =>
    cases hd : decode v with
    | command i =>
      obtain rfl := encode_of_decode hd
      cases i <;> rfl
    | illegal =>
      have h8 := (decode_illegal_iff v).1 hd
      have ne {n : Nat} (hn : n < 8) : v.toNat ≠ n := by omega
      simp [ne]

/-- Settles O2: the lanes of a word decode as the word does. -/
theorem decodeEncodeAgree : Obligations.DecodeEncodeAgree :=
  ⟨fun i _ => ⟨decode_encode i, (decodeBytes_lanes _).trans (decode_encode i)⟩, fun _ _ => encode_of_decode⟩

/-- Settles O3: each table word is decoded as a command word. -/
theorem tableWordsDecode : Obligations.TableWordsDecode := by
  unfold Obligations.TableWordsDecode
  simp only [decodeTableWord_of_lt, Nat.reducePow, Nat.reduceLT]
  decide

end Machine

end Sys2Proof
end

section
/-! PROOFS. The statements of a host program, each as one step of the machine and in the program's encoding (O59). -/

namespace Sys2Proof.Machine

variable {s : State} {es : List Event} {h k : HostState}

/-! ## The host program's turn, by what its next statement does -/

theorem step_hostSilent (he : s.events = .host :: es) (hn : s.host.next = .silent k) :
    step s = .next { s with events := es, host := k } := by
  rw [step_event he]
  simp only [turnOf, hostTurn, hn, Turn.run]

/-- R96: a write of the host program is the access event that makes it. -/
theorem step_hostWrite {off : Nat} {v : Word} (he : s.events = .host :: es) (hn : s.host.next = .write off v k) :
    step s = step { s with events := .access (.write off 8 v) :: es, host := k } := by
  rw [step_event he, step_event (s := { s with events := .access (.write off 8 v) :: es, host := k }) rfl]
  simp only [turnOf, hostTurn, hn, Config.accessBytes]

theorem step_hostRead {t : Nat} {r : Reg} (he : s.events = .host :: es) (hn : s.host.next = .read r.off t k) :
    step s = .next
      { s with events := es, rsp := some (.data (readReg r s)), host := k.setVar t (readReg r s).toNat } := by
  rw [step_event he]
  simp only [turnOf, hostTurn, hn, Config.accessBytes, access_read (legal_off r), readOff_off, Turn.run]
  cases r <;> rfl

/-! ## Statements -/

/-- A statement without a transaction, as a step and in the encoding. -/
theorem silent_step_and_transactions (he : s.events = .host :: es) (hn : s.host.next = .silent k) :
    step s = .next { s with events := es, host := k } ∧
      ∀ (n : Nat) (vals : List Word), s.host.transactions (n + 1) vals = k.transactions n vals :=
  ⟨step_hostSilent he hn, HostState.transactions_silent hn⟩

theorem HostState.next_halted (hh : h.halted = true) : h.next = .idle := by simp [next, hh]

/-- R96: nothing is encoded after `HALT`. -/
theorem HostState.transactions_halt (c : h.At .halt) (n : Nat) (vals : List Word) : h.transactions n vals = [] := by
  cases n with
  | zero => rfl
  | succ n => rw [transactions_silent (next_halt c), transactions_idle (next_halted rfl)]

/-- Settles O59: each statement by what it does next. -/
theorem hostStatementsAreAccesses : Obligations.HostStatementsAreAccesses := by
  rintro s es _ he rfl hh past silent
  have silent_of {k : HostState} (hn : s.host.next = .silent k) : silent k := silent_step_and_transactions he hn
  have goto_of {l p : Nat} (hp : s.host.prog.findIdx? (· == .label l) = some p) (hn : s.host.next = s.host.goto l) :
      silent { s.host with pos := p } := silent_of (hn.trans (HostState.goto_found hp))
  refine ⟨fun r e x c hx h0 h64 => ?wr, fun r t c => ?rd, fun t e x c hx => silent_of (HostState.next_set ⟨hh, c⟩ hx),
    fun l p hp => ⟨fun c => goto_of hp (HostState.next_goto ⟨hh, c⟩), fun q c hq => ?taken⟩,
    fun q l c hq => silent_of (HostState.next_ifGoto ⟨hh, c⟩ hq), fun l c => silent_of (HostState.next_label ⟨hh, c⟩),
    fun c => ⟨silent_of (HostState.next_halt ⟨hh, c⟩), HostState.transactions_halt ⟨hh, c⟩⟩⟩
  case wr =>
    have hn := HostState.next_wr ⟨hh, c⟩ hx (wordOf_eq h0 h64)
    exact ⟨step_hostWrite he hn, HostState.transactions_write hn⟩
  case rd =>
    have hn := HostState.next_rd ⟨hh, c⟩
    exact ⟨_, rfl, Vars.get_put _ _ _, step_hostRead he hn, fun n vals => HostState.transactions_read hn n _ vals⟩
  case taken => exact goto_of hp (HostState.next_ifGoto ⟨hh, c⟩ hq)

end Sys2Proof.Machine
end

section
/-! PROOFS. The encodings of the pseudo-instructions (O60): straight lines of writes, and the polling loop. -/

namespace Sys2Proof.Machine

variable {h : HostState} {vs : Vars}

/-! ## Straight lines of writes -/

/-- `WR r, e` encodes as the write of the word that `e` evaluates to (R96, R98). -/
inductive WritesAs (vs : Vars) : Stmt → Access → Prop
  | intro (r : Reg) {e : Expr} {w : Word} (he : e.eval vs = some (w.toNat : Int)) :
      WritesAs vs (.wr r e) (.write r.off 8 w)

/-- The `CMD` write that ends a command's expansion (R97). -/
theorem WritesAs.cmd (i : Instr) : WritesAs vs (.wr .cmd (.num i.opcode.toNat)) (.write 0x18 8 (encode i)) :=
  .intro .cmd (by cases i <;> rfl)

/-- The statements that are left begin with the one the host runs next. -/
theorem HostState.at_of_drop {c : Stmt} {cs : List Stmt} (hh : h.halted = false) (hd : h.prog.drop h.pos = c :: cs) :
    h.At c ∧ h.past.prog.drop h.past.pos = cs := by
  refine ⟨⟨hh, ?_⟩, ?_⟩
  · simpa [hd] using (List.getElem?_drop (xs := h.prog) (i := h.pos) (j := 0)).symm
  · simpa [hd, past] using (List.tail_drop (l := h.prog) (i := h.pos)).symm

/-- R98: where only writes are left, the transactions are those writes in order. -/
theorem HostState.transactions_writes {cs : List Stmt} {as : List Access} (hw : List.Forall₂ (WritesAs h.vars) cs as)
    (hh : h.halted = false) (hd : h.prog.drop h.pos = cs) {n : Nat} (hn : cs.length ≤ n) (vals : List Word) :
    h.transactions n vals = as := by
  induction cs generalizing h as n with
  | nil =>
    cases hw
    exact transactions_idle (next_end (List.drop_eq_nil_iff.1 hd)) n vals
  | cons c cs ih =>
    obtain ⟨hc, hpast⟩ := at_of_drop hh hd
    obtain ⟨m, rfl⟩ : ∃ m, n = m + 1 := ⟨n - 1, by simp at hn; omega⟩
    cases hw with
    | cons ha hs =>
      cases ha with
      | intro r he =>
        rw [transactions_write (next_wr hc he (wordOf_toNat _)),
          ih (h := h.past) hs hh hpast (Nat.le_of_succ_le_succ hn)]

/-- R98: a program of writes encodes as those writes, once all its statements are run. -/
theorem encodeProgram_writes {prog : List Stmt} {as : List Access} (hw : List.Forall₂ (WritesAs vs) prog as) (n : Nat)
    (vals : List Word) (hn : prog.length ≤ n) : encodeProgram n vals vs prog = as :=
  HostState.transactions_writes (h := { HostState.start prog with vars := vs }) hw rfl rfl hn vals

/-! ## The polling loop -/

/-- `WAIT t` with its label (R97), standing at one of its statements. -/
def waitAt (t l p : Nat) (vs : Vars) : HostState :=
  { HostState.start (Pseudo.wait t l).expand with pos := p, vars := vs }

/-- The loop's condition: bit 0 of what was read last. -/
theorem eval_pollCondition (vs : Vars) (t : Nat) (v : Word) :
    (Cond.eq (.bit (.var t) 0) (.num 1)).eval (vs.put t v.toNat) = some (v.getLsbD 0) := by
  have hbit : ((v.toNat : Int) % 2 = 1) ↔ v.getLsbD 0 = true := by
    rw [BitVec.getLsbD, Nat.testBit_zero, decide_eq_true_eq]
    omega
  simp [Cond.eval, Expr.eval, Vars.get_put, hbit]

/-- One pass of the loop: a read of `STATUS`, and then the loop again or its end, by bit 0 of the value read. -/
theorem transactions_waitPass (t l : Nat) (vs : Vars) (n : Nat) (v : Word) (vals : List Word) :
    (waitAt t l 0 vs).transactions (n + 3) (v :: vals) =
      .read 0x10 8 :: (waitAt t l (if v.getLsbD 0 then 0 else 3) (vs.put t v.toNat)).transactions n vals := by
  have hlabel : (waitAt t l 0 vs).next = .silent (waitAt t l 1 vs) := HostState.next_label ⟨rfl, rfl⟩
  have hread : (waitAt t l 1 vs).next = .read 0x10 t (waitAt t l 2 vs) :=
    HostState.next_rd (r := .status) ⟨rfl, rfl⟩
  have hbranch : (waitAt t l 2 (vs.put t v.toNat)).next =
      .silent (waitAt t l (if v.getLsbD 0 then 0 else 3) (vs.put t v.toNat)) := by
    rw [HostState.next_ifGoto ⟨rfl, rfl⟩ (eval_pollCondition vs t v)]
    cases v.getLsbD 0 with
    | true => exact HostState.goto_found (p := 0) (by simp [waitAt, HostState.start, Pseudo.expand, List.findIdx?_cons])
    | false => rfl
  rw [HostState.transactions_silent hlabel, HostState.transactions_read hread]
  exact congrArg _ (HostState.transactions_silent hbranch n vals)

/-- R97: the loop reads `STATUS` until bit 0 of what it read is 0, and no more. -/
theorem transactions_wait {t l : Nat} {polls : List Word} {v : Word} (rest : List Word)
    (hp : ∀ w ∈ polls, w.getLsbD 0 = true) (hv : v.getLsbD 0 = false) (vs : Vars) {n : Nat}
    (hn : 3 * polls.length + 3 ≤ n) :
    (waitAt t l 0 vs).transactions n (polls ++ v :: rest) = List.replicate (polls.length + 1) (.read 0x10 8) := by
  obtain ⟨m, rfl⟩ : ∃ m, n = m + 3 := ⟨n - 3, by omega⟩
  induction polls generalizing vs m with
  | nil =>
    rw [List.nil_append, transactions_waitPass, hv]
    exact congrArg _ (HostState.transactions_idle (HostState.next_end (h := waitAt t l 3 _) le_rfl) m rest)
  | cons w ws ih =>
    obtain ⟨hw, hws⟩ := List.forall_mem_cons.1 hp
    obtain ⟨j, rfl⟩ : ∃ j, m = j + 3 := ⟨m - 3, by simp at hn; omega⟩
    rw [List.cons_append, transactions_waitPass, hw]
    exact congrArg _ (ih hws _ j (by simp at hn; omega))

/-- Settles O60: every expansion but `WAIT`'s is a straight line of writes. -/
theorem pseudoInstructionsEncode : Obligations.PseudoInstructionsEncode := by
  intro vs x y z a b c hx hy hz cmd enc
  have writes {prog : List Stmt} {as : List Access} (hw : List.Forall₂ (WritesAs vs) prog as) :
      enc prog.length prog as := encodeProgram_writes hw
  have opa := WritesAs.intro .opa hx
  have opb := WritesAs.intro .opb hy
  have opc := WritesAs.intro .opc hz
  have unary (i : Instr) : enc 2 [.wr .opa x, .wr .cmd (.num i.opcode.toNat)] [.write 0x20 8 a, cmd i] :=
    writes (.cons opa (.cons (.cmd i) .nil))
  have binary (i : Instr) : enc 3 [.wr .opa x, .wr .opb y, .wr .cmd (.num i.opcode.toNat)]
      [.write 0x20 8 a, .write 0x28 8 b, cmd i] := writes (.cons opa (.cons opb (.cons (.cmd i) .nil)))
  refine ⟨writes (.cons (.cmd .nop) .nil), unary .digits, binary .invchk, binary .visitchk, unary .magic, unary .factor,
    binary .modinv, writes (.cons opa (.cons opb (.cons opc (.cons (.cmd .modpow) .nil)))),
    writes (.cons (.intro .status rfl) .nil), fun ie v hie => writes (.cons (.intro .ctrl ?abort) .nil),
    fun t l => ⟨rfl, fun polls rest v n hp hv hn => transactions_wait rest hp hv vs hn⟩⟩
  case abort =>
    have := v.isLt
    simp [Expr.eval, hie]
    omega

end Sys2Proof.Machine
end

section
/-! PROOFS. The digit engine (spec/40_digits.md): the digits `DIGITS` writes (O11, O12), the answer of `INVCHK` (O13, O14), the
traversal of `VISITCHK` (O15, O16), and `MAGIC` as the two of them on the digits of an integer (O17, O18, O19). -/

namespace Sys2Proof.Machine

variable {i : Instr} {s t : State} {d : Nat → Nat} {n len : Nat}

/-! ## The engine's functions on a sequence `d 0, …, d (len - 1)` -/

theorem map_range_getD {j : Nat} (h : j < len) : ((List.range len).map d).getD j 0 = d j := by
  simp [List.getD_eq_getElem?_getD, h]

theorem invalidDigits_map_range (d : Nat → Nat) (len : Nat) :
    invalidDigits ((List.range len).map d) = true ↔ Spec.invalid d len := by
  rw [invalidDigits_iff, List.length_map, List.length_range, Spec.invalid]
  refine or_congr (exists_congr fun j => and_congr_right fun hj => ?_)
    (exists₂_congr fun j k => and_congr_right fun hjk => and_congr_right fun hk => ?_)
  · rw [map_range_getD hj]
  · rw [map_range_getD (hjk.trans hk), map_range_getD hk]

theorem position_lt (hl : 0 < len) (k : Nat) : Spec.position d len k < len := by
  cases k with
  | zero => exact hl
  | succ k => exact Nat.mod_lt _ hl

/-- The walk never leaves the sequence, so it reads only digits below `len`. -/
theorem positions_map_range (hl : 0 < len) (k : Nat) :
    positions ((List.range len).map d) k = Spec.position d len k := by
  induction k with
  | zero => rfl
  | succ k ih =>
    rw [positions, ih, move, map_range_getD (position_lt hl k), List.length_map, List.length_range, Spec.position]

theorem traversal_map_range (hl : 0 < len) : traversal ((List.range len).map d) = true ↔ Spec.visits d len := by
  simp only [traversal_iff, positions_map_range hl, List.length_map, List.length_range, Spec.visits]

/-- R13: what a command unpacks are the digits of the word. -/
theorem unpack_eq_map_digit (v : Word) (len : Nat) : unpack v.toNat len = (List.range len).map (Spec.digit v) :=
  List.map_congr_left fun j _ => (extract_nibble v j).symm

/-! ## The digits of an integer -/

theorem isDigitCount_digitCount (h : n < 10 ^ 16) : Spec.isDigitCount n (digitCount n) := by
  obtain ⟨hlt, hleast, -⟩ := digitCount_spec h
  exact ⟨hlt, hleast⟩

theorem isDigitCount_unique {m : Nat} (hl : Spec.isDigitCount n len) (hm : Spec.isDigitCount n m) : len = m :=
  le_antisymm (hl.2 m hm.1) (hm.2 len hl.1)

/-- R111: the model's sequence is that of the `len` decimal digits. -/
theorem digitSeq_eq_map_decimalDigit (h : n < 10 ^ 16) (hl : Spec.isDigitCount n len) :
    digitSeq n = (List.range len).map (Spec.decimalDigit n len) := by
  rw [isDigitCount_unique hl (isDigitCount_digitCount h)]
  rfl

/-- A number is the sum of its digits by place value. -/
theorem sum_decimalDigit (h : n < 10 ^ len) :
    ((List.range len).map fun j => Spec.decimalDigit n len j * 10 ^ (len - 1 - j)).sum = n := by
  have low (m : Nat) : ∑ j ∈ Finset.range m, n / 10 ^ j % 10 * 10 ^ j = n % 10 ^ m := by
    induction m with
    | zero => simp [Nat.mod_one]
    | succ m ih => rw [Finset.sum_range_succ, ih, Nat.mod_pow_succ, Nat.mul_comm (10 ^ m)]
  calc ((List.range len).map fun j => Spec.decimalDigit n len j * 10 ^ (len - 1 - j)).sum
      = ∑ j ∈ Finset.range len, n / 10 ^ (len - 1 - j) % 10 * 10 ^ (len - 1 - j) := rfl
    _ = ∑ j ∈ Finset.range len, n / 10 ^ j % 10 * 10 ^ j :=
        Finset.sum_range_reflect (fun j => n / 10 ^ j % 10 * 10 ^ j) len
    _ = n := by rw [low, Nat.mod_eq_of_lt h]

/-- R111: the digit count is the least, so the most significant digit is not 0. -/
theorem decimalDigit_zero_ne_zero (hl : Spec.isDigitCount n len) (hpos : 1 ≤ len) : Spec.decimalDigit n len 0 ≠ 0 := by
  obtain ⟨hlt, hleast⟩ := hl
  have hge : 10 ^ (len - 1) ≤ n := by
    by_contra hc
    have := hleast (len - 1) (by omega)
    omega
  have hten : n / 10 ^ (len - 1) < 10 := Nat.div_lt_of_lt_mul (by rwa [← pow_succ, Nat.sub_add_cancel hpos])
  rw [Spec.decimalDigit, Nat.sub_zero, Nat.mod_eq_of_lt hten]
  exact (Nat.div_pos hge (by positivity)).ne'

/-! ## What the commands write -/

/-- R183: a command in flight that reaches a next state makes its engine step, on snapshots in its domain. -/
theorem exec_next_of_busy (hb : s.busy = true) (h : exec i s = .next t) :
    Spec.domain i s.sa s.sb s.sc ∧ t = engineOf i s := by
  rcases exec_next h with ⟨hidle, -⟩ | ⟨-, hd, rfl⟩
  · exact absurd hb (ne_true_of_eq_false hidle)
  · exact ⟨(domainOk_iff_domain ..).1 hd, rfl⟩

theorem exec_of_domain (hb : s.busy = true) (hd : Spec.domain i s.sa s.sb s.sc) : exec i s = .next (engineOf i s) :=
  exec_busy hb ((domainOk_iff_domain ..).2 hd)

theorem boolWord_eq_one_iff {b : Bool} : boolWord b = 1 ↔ b = true := by cases b <;> decide

theorem boolWord_eq_zero_iff {b : Bool} : boolWord b = 0 ↔ b = false := by cases b <;> decide

/-- A check that decides `p` answers 1 where `p` holds and 0 elsewhere. -/
theorem finish_boolWord_cases {b : Bool} {p : Prop} (h : b = true ↔ p) (s : State) :
    (p → finish (boolWord b) 0 s = Spec.completed 1 0 s) ∧ (¬p → finish (boolWord b) 0 s = Spec.completed 0 0 s) := by
  refine ⟨fun hp => ?_, fun hp => ?_⟩
  · rw [boolWord_eq_one_iff.2 (h.2 hp)]
    rfl
  · rw [boolWord_eq_zero_iff.2 (Bool.eq_false_iff.2 (mt h.1 hp))]
    rfl

/-! ## `DIGITS` -/

theorem digitSeq_lt_sixteen (n : Nat) : ∀ d ∈ digitSeq n, d < 16 := fun d hd => (digitSeq_lt n d hd).trans (by decide)

theorem digitSeq_length_le (h : n < 10 ^ 16) : (digitSeq n).length ≤ 16 := by
  obtain ⟨-, -, hle⟩ := digitCount_spec h
  rwa [digitSeq_length]

/-- R13: `pack` puts digit `i` in nibble `i`, and 0 above the last digit. -/
theorem digit_pack {ds : List Nat} (h : ∀ d ∈ ds, d < 16) (hl : ds.length ≤ 16) (j : Nat) :
    Spec.digit (toWord (pack ds)) j = ds.getD j 0 := by
  rw [Spec.digit, extract_nibble, pack_word h hl, nibble_pack h]

/-- Settles O11: the words of `digitsStep`, read digit by digit. -/
theorem digitsWritesTheSequence : Obligations.DigitsWritesTheSequence := by
  intro s hb h1 h2
  have hn : s.sa.toNat < 10 ^ 16 := by omega
  have hcount := isDigitCount_digitCount hn
  have hle := digitSeq_length_le hn
  have hlen : (toWord (digitSeq s.sa.toNat).length).toNat = digitCount s.sa.toNat := by
    rw [toNat_toWord (by omega), digitSeq_length]
  have hdigit := digit_pack (digitSeq_lt_sixteen s.sa.toNat) hle
  refine ⟨_, _, ?_, ?_, ?_, fun j hj => ?_, fun j hj _ => ?_, exec_of_domain hb ⟨h1, h2⟩⟩
  · rwa [hlen]
  · rw [hlen]
    exact digitCount_pos h1 hn
  · rwa [hlen, ← digitSeq_length]
  · rw [hlen] at hj ⊢
    rw [hdigit, digitSeq_getD hj, Spec.decimalDigit]
  · rw [hdigit, List.getD_eq_default _ _ (by rwa [digitSeq_length, ← hlen])]

/-- Settles O12: the digits of O11, by place value. -/
theorem digitsOfANumberGiveItBack : Obligations.DigitsOfANumberGiveItBack := by
  intro s t hb h
  obtain ⟨⟨h1, h2⟩, -⟩ := exec_next_of_busy hb h
  obtain ⟨r0, r1, hcount, hpos, -, hdigit, -, hexec⟩ := digitsWritesTheSequence s hb h1 h2
  obtain rfl : Spec.completed r0 r1 s = t := Host.Outcome.next.inj (hexec.symm.trans h)
  simp only [Spec.completed]
  constructor
  · rw [← sum_decimalDigit hcount.1]
    exact congrArg List.sum (List.map_congr_left fun j hj => by rw [hdigit j (List.mem_range.1 hj)])
  · rw [hdigit 0 hpos]
    exact decimalDigit_zero_ne_zero hcount hpos

/-! ## `INVCHK` -/

/-- Settles O13: `invchkStep` asks for a zero or a repeat among the unpacked digits. -/
theorem invchkFindsZeroOrRepeat : Obligations.InvchkFindsZeroOrRepeat := by
  intro s hb hd
  obtain ⟨hbad, hgood⟩ := finish_boolWord_cases (invalidDigits_map_range (Spec.digit s.sa) s.sb.toNat) s
  rw [exec_of_domain hb hd, engineOf, invchkStep, unpack_eq_map_digit]
  exact ⟨fun h => by rw [hbad h], fun h => by rw [hgood h]⟩

/-- R115: only nine values are left for ten digits that are not 0. -/
theorem invalid_of_ten_le (hl : 10 ≤ len) (hd : ∀ j < len, d j ≤ 9) : Spec.invalid d len := by
  by_cases hz : ∃ j < len, d j = 0
  · exact .inl hz
  · have maps : ∀ j ∈ Finset.range len, d j ∈ Finset.Icc 1 9 := fun j hj => by
      have hj := Finset.mem_range.1 hj
      have : d j ≠ 0 := fun h0 => hz ⟨j, hj, h0⟩
      exact Finset.mem_Icc.2 ⟨by omega, hd j hj⟩
    have card : (Finset.Icc 1 9).card < (Finset.range len).card := by
      rw [Nat.card_Icc, Finset.card_range]
      exact hl
    obtain ⟨j, hj, k, hk, hne, he⟩ := Finset.exists_ne_map_eq_of_card_lt_of_maps_to card maps
    rw [Finset.mem_range] at hj hk
    rcases Nat.lt_or_gt_of_ne hne with h | h
    · exact .inr ⟨j, k, h, hk, he⟩
    · exact .inr ⟨k, j, h, hj, he.symm⟩

/-- Settles O14: the first case of O13, by the pigeonhole. -/
theorem tenDigitsAreInvalid : Obligations.TenDigitsAreInvalid := by
  intro s hb hd hl
  have ⟨_, _, hnine⟩ := hd
  exact (invchkFindsZeroOrRepeat s hb hd).1 (invalid_of_ten_le hl hnine)

/-! ## `VISITCHK` -/

/-- Settles O15: `visitchkStep` walks over the unpacked digits. -/
theorem visitchkFollowsTheTraversal : Obligations.VisitchkFollowsTheTraversal := by
  intro s hb hd
  obtain ⟨hyes, hno⟩ := finish_boolWord_cases (traversal_map_range (d := Spec.digit s.sa) hd.1) s
  rw [exec_of_domain hb hd, engineOf, visitchkStep, unpack_eq_map_digit]
  exact ⟨fun h => by rw [hyes h], fun h => by rw [hno h]⟩

/-- A move depends on the position only, so two equal positions have the same moves after them. -/
theorem position_add_congr {j k : Nat} (h : Spec.position d len j = Spec.position d len k) (m : Nat) :
    Spec.position d len (j + m) = Spec.position d len (k + m) := by
  induction m with
  | zero => exact h
  | succ m ih => rw [← Nat.add_assoc, ← Nat.add_assoc, Spec.position, Spec.position, ih]

/-- R122: the walk closes for the first time after `len` moves iff it visits `len` distinct positions and closes. A position
met twice would bring it back to 0 that much earlier. -/
theorem visits_iff_distinct : Spec.visits d len ↔
    (∀ j k, j < k → k < len → Spec.position d len j ≠ Spec.position d len k) ∧ Spec.position d len len = 0 := by
  constructor
  · rintro ⟨hclose, hearly⟩
    refine ⟨fun j k hjk hk he => ?_, hclose⟩
    have hshift := position_add_congr he (len - k)
    rw [Nat.add_sub_cancel' hk.le, hclose] at hshift
    exact hearly (j + (len - k)) (by omega) (by omega) hshift
  · rintro ⟨hdistinct, hclose⟩
    exact ⟨hclose, fun k h1 hk => (hdistinct 0 k h1 hk).symm⟩

/-- Settles O16: the answer of O15, with the traversal rule as a full cycle. -/
theorem visitchkIsAFullCycle : Obligations.VisitchkIsAFullCycle := by
  intro s t hb h
  obtain ⟨hd, rfl⟩ := exec_next_of_busy hb h
  change boolWord (traversal (unpack s.sa.toNat s.sb.toNat)) = 1 ↔ _
  rw [boolWord_eq_one_iff, unpack_eq_map_digit, traversal_map_range hd.1, visits_iff_distinct]

/-! ## `MAGIC` -/

theorem magicStep_invalid (h : invalidDigits (digitSeq s.sa.toNat) = true) : magicStep s = finish 0 1 s := if_pos h

theorem magicStep_valid (h : invalidDigits (digitSeq s.sa.toNat) = false) :
    magicStep s = if traversal (digitSeq s.sa.toNat) then finish 1 0 s else finish 0 2 s :=
  if_neg (ne_true_of_eq_false h)

/-- Settles O18: the three branches of `magicStep`, on the decimal digits of the operand. -/
theorem magicCombinesBothChecks : Obligations.MagicCombinesBothChecks := by
  intro s len hb h1 h2 hlen
  have hseq := digitSeq_eq_map_decimalDigit (by omega) hlen
  have hpos : 0 < len := by
    rcases Nat.eq_zero_or_pos len with rfl | h
    · exact absurd hlen.1 (by omega)
    · exact h
  have hinv := invalidDigits_map_range (Spec.decimalDigit s.sa.toNat len) len
  have htrav := traversal_map_range (d := Spec.decimalDigit s.sa.toNat len) hpos
  rw [← hseq] at hinv htrav
  have hvalid (hi : ¬Spec.invalid (Spec.decimalDigit s.sa.toNat len) len) := Bool.eq_false_iff.2 (mt hinv.1 hi)
  rw [exec_of_domain (i := .magic) hb ⟨h1, h2⟩, engineOf]
  refine ⟨fun hi => ?_, fun hi hv => ?_, fun hi hv => ?_⟩
  · rw [magicStep_invalid (hinv.2 hi)]
    rfl
  · rw [magicStep_valid (hvalid hi), if_pos (htrav.2 hv)]
    rfl
  · rw [magicStep_valid (hvalid hi), if_neg (mt htrav.1 hv)]
    rfl

/-- R112: what `DIGITS` writes unpacks to the digit sequence of its operand. -/
theorem unpack_digitsStep (h : s.sa.toNat < 10 ^ 16) :
    unpack (digitsStep s).res0.toNat (digitsStep s).res1.toNat = digitSeq s.sa.toNat := by
  have hle := digitSeq_length_le h
  change unpack (toWord (pack (digitSeq s.sa.toNat))).toNat (toWord (digitSeq s.sa.toNat).length).toNat = _
  rw [pack_word (digitSeq_lt_sixteen _) hle, toNat_toWord (by omega), unpack_pack (digitSeq_lt_sixteen _)]

/-- Settles O19: the three commands look at one digit sequence. -/
theorem magicIsTheDigitPipeline : Obligations.MagicIsTheDigitPipeline := by
  intro sd si sv sm td ti tv tm hsd hsi hsv hsm hdigits hsa hi0 hi1 hv0 hv1 hinvchk hvisitchk hmagic
  obtain ⟨⟨-, hle⟩, rfl⟩ := exec_next_of_busy hsd hdigits
  obtain ⟨-, rfl⟩ := exec_next_of_busy hsi hinvchk
  obtain ⟨-, rfl⟩ := exec_next_of_busy hsv hvisitchk
  obtain ⟨-, rfl⟩ := exec_next_of_busy hsm hmagic
  have hseq := unpack_digitsStep (s := sd) (by omega)
  have hi : (engineOf .invchk si).res0 = boolWord (invalidDigits (digitSeq sm.sa.toNat)) := by
    rw [hsa, ← hseq]
    change boolWord (invalidDigits (unpack si.sa.toNat si.sb.toNat)) = _
    rw [hi0, hi1]
    rfl
  have hv : (engineOf .visitchk sv).res0 = boolWord (traversal (digitSeq sm.sa.toNat)) := by
    rw [hsa, ← hseq]
    change boolWord (traversal (unpack sv.sa.toNat sv.sb.toNat)) = _
    rw [hv0, hv1]
    rfl
  rw [hi, hv, boolWord_eq_zero_iff, boolWord_eq_one_iff, boolWord_eq_one_iff, engineOf]
  cases hb : invalidDigits (digitSeq sm.sa.toNat) with
  | true => simp [magicStep_invalid hb]
  | false =>
    rw [magicStep_valid hb]
    cases traversal (digitSeq sm.sa.toNat) <;> simp

/-! ## One digit -/

/-- R123: modulo 1 every move ends at position 0. -/
theorem visits_one (d : Nat → Nat) : Spec.visits d 1 := ⟨Nat.mod_one _, fun k h1 h2 => by omega⟩

/-- One digit repeats nothing. -/
theorem invalid_one_iff : Spec.invalid d 1 ↔ d 0 = 0 := by
  constructor
  · rintro (⟨j, hj, h⟩ | ⟨j, k, hjk, hk, -⟩)
    · obtain rfl : j = 0 := by omega
      exact h
    · omega
  · exact fun h => .inl ⟨0, by decide, h⟩

theorem isDigitCount_one (h1 : 1 ≤ n) (h9 : n ≤ 9) : Spec.isDigitCount n 1 := by
  refine ⟨by omega, fun m hm => ?_⟩
  cases m with
  | zero => omega
  | succ m => omega

/-- Settles O17: one digit passes the traversal of O15 and, where it is not 0, both checks of O18. -/
theorem oneDigitVisitsAll : Obligations.OneDigitVisitsAll := by
  refine fun s hb => ⟨fun hone hdigit => ?_, fun h1 h9 => ?_⟩
  · have hlen : s.sb.toNat = 1 := by rw [hone]; rfl
    have hd : Spec.domain .visitchk s.sa s.sb s.sc := by
      refine ⟨hlen.ge, by omega, fun j hj => ?_⟩
      obtain rfl : j = 0 := by omega
      exact hdigit
    exact (visitchkFollowsTheTraversal s hb hd).1 (by rw [hlen]; exact visits_one _)
  · have hcount := isDigitCount_one h1 h9
    have hvalid := mt invalid_one_iff.1 (decimalDigit_zero_ne_zero hcount le_rfl)
    exact (magicCombinesBothChecks s 1 hb h1 (by omega) hcount).2.1 hvalid (visits_one _)

end Sys2Proof.Machine
end

section
/-! PROOFS. The rho engine (spec/41_factor.md): what one iteration does (O20, O21), the divisor it finds (O22), and when a run
of the engine ends: never on 1 without a limit (O23), always from 2 on (O24), and within the limit (O25). -/

namespace Sys2Proof.Machine

variable {p : Params} {s t u : State} {j k : Nat}

/-! ## One iteration -/

theorem limitReached_iff : limitReached s = true ↔ s.slim ≠ 0 ∧ s.iterCount = s.slim := by simp [limitReached]

/-- The registers after an iteration that ends its batch, before any result is written (R142, R147). -/
def batchEnded (p : Params) (s : State) : State :=
  { rhoAdvance p s with rhoBatch := doubleBatch s.rhoBatch, rhoY := (rhoAdvance p s).rhoX, rhoCnt := 0 }

theorem rhoIteration_inside (hl : limitReached s = false) (hd : (rhoAdvance p s).rhoD = 1)
    (hc : s.rhoCnt + 1 ≠ s.rhoBatch) : rhoIteration p s = rhoAdvance p s := by
  rcases rhoIteration_cases p hl with ⟨-, -, e⟩ | ⟨-, hc', -⟩ | ⟨hd', -⟩
  · exact e
  · exact absurd hc' hc
  · exact absurd hd hd'

theorem rhoIteration_batchEnd (hl : limitReached s = false) (hd : (rhoAdvance p s).rhoD = 1)
    (hc : s.rhoCnt + 1 = s.rhoBatch) : rhoIteration p s = batchEnded p s := by
  rcases rhoIteration_cases p hl with ⟨-, hc', -⟩ | ⟨-, -, e⟩ | ⟨hd', -⟩
  · exact absurd hc hc'
  · exact e
  · exact absurd hd hd'

theorem rhoIteration_found (hl : limitReached s = false) (hd : (rhoAdvance p s).rhoD ≠ 1) :
    rhoIteration p s =
      finish (rhoAdvance p s).rhoD (toWord (s.sa.toNat / (rhoAdvance p s).rhoD.toNat)) (batchEnded p s) := by
  rcases rhoIteration_cases p hl with ⟨hd', -⟩ | ⟨hd', -⟩ | ⟨-, e⟩
  · exact absurd hd' hd
  · exact absurd hd' hd
  · exact e

/-- While the command goes on the last gcd was 1, and the batch went on or ended (R142). -/
theorem rhoIteration_busy (h : (rhoIteration p s).busy = true) :
    s.busy = true ∧ limitReached s = false ∧ (rhoAdvance p s).rhoD = 1 ∧
      ((s.rhoCnt + 1 ≠ s.rhoBatch ∧ rhoIteration p s = rhoAdvance p s) ∨
        (s.rhoCnt + 1 = s.rhoBatch ∧ rhoIteration p s = batchEnded p s)) := by
  cases hl : limitReached s with
  | true => rw [rhoIteration_limit p hl] at h; cases h
  | false =>
    rcases rhoIteration_cases p hl with ⟨hd, hc, e⟩ | ⟨hd, hc, e⟩ | ⟨-, e⟩
    · exact ⟨by rw [e] at h; exact h, rfl, hd, .inl ⟨hc, e⟩⟩
    · exact ⟨by rw [e] at h; exact h, rfl, hd, .inr ⟨hc, e⟩⟩
    · rw [e] at h; cases h

/-- R46: every iteration made counts. -/
theorem rhoIteration_iterCount (hl : limitReached s = false) : (rhoIteration p s).iterCount = s.iterCount + 1 := by
  rcases rhoIteration_cases p hl with ⟨-, -, e⟩ | ⟨-, -, e⟩ | ⟨-, e⟩ <;> rw [e] <;> rfl

/-- R144: short of the limit `FACTOR` ends with a result only. -/
theorem rhoIteration_done_of_idle (hb : s.busy = true) (hl : limitReached s = false)
    (h : (rhoIteration p s).busy = false) : (rhoIteration p s).done = true := by
  rcases rhoIteration_cases p hl with ⟨-, -, e⟩ | ⟨-, -, e⟩ | ⟨-, e⟩ <;> rw [e] at h ⊢
  · exact absurd hb (ne_true_of_eq_false h)
  · exact absurd hb (ne_true_of_eq_false h)
  · rfl

/-- R149: an iteration sets `DONE` only with a factor. -/
theorem rhoD_ne_one_of_done (hd : s.done = false) (h : (rhoIteration p s).done = true) :
    limitReached s = false ∧ (rhoAdvance p s).rhoD ≠ 1 := by
  cases hl : limitReached s with
  | true =>
    rw [rhoIteration_limit p hl] at h
    exact absurd h (ne_true_of_eq_false hd)
  | false =>
    rcases rhoIteration_cases p hl with ⟨-, -, e⟩ | ⟨-, -, e⟩ | ⟨h1, -⟩
    · rw [e] at h; exact absurd h (ne_true_of_eq_false hd)
    · rw [e] at h; exact absurd h (ne_true_of_eq_false hd)
    · exact ⟨rfl, h1⟩

/-- Settles O20: the limit, then the three cases of `rhoIteration_cases`. -/
theorem rhoIterationCases : Obligations.RhoIterationCases := by
  intro s hb hn
  rw [exec_of_domain (i := .factor) hb hn, engineOf]
  refine ⟨fun hl => by rw [rhoIteration_limit _ (limitReached_iff.2 hl)]; rfl, fun hl => ?_⟩
  replace hl : limitReached s = false := Bool.eq_false_iff.2 (mt limitReached_iff.1 hl)
  refine ⟨(rhoAdvance Config.prh1 s).rhoX, (rhoAdvance Config.prh1 s).rhoD, rhoAdvance_x Config.prh1 hn, ?gcd,
    fun hd hc => ?inside, fun hd hc => ?batchEnd, fun hd => ?found⟩
  case gcd => rw [rhoAdvance_d _ hn, rhoAdvance_x _ hn, absDiff_eq]
  case inside => rw [rhoIteration_inside hl hd hc]; rfl
  case batchEnd => rw [rhoIteration_batchEnd hl hd hc]; rfl
  case found => rw [rhoIteration_found hl hd]; rfl

/-- Settles O21: the first clause of O20. -/
theorem factorStopsAtTheLimit : Obligations.FactorStopsAtTheLimit :=
  fun s hb hn hs hc => (rhoIterationCases s hb hn).1 ⟨hs, hc⟩

/-! ## The divisor found -/

theorem rhoAdvance_d_dvd (p : Params) (hn : 1 ≤ s.sa.toNat) : (rhoAdvance p s).rhoD.toNat ∣ s.sa.toNat := by
  rw [rhoAdvance_d p hn]
  exact Nat.gcd_dvd_right _ _

/-- R149: a divisor other than 1 is at least 2, and its cofactor fits in a word. -/
theorem divisor_cofactor {d n : Word} (hn : 1 ≤ n.toNat) (hdvd : d.toNat ∣ n.toNat) (hd : d ≠ 1) :
    2 ≤ d.toNat ∧ d.toNat * (toWord (n.toNat / d.toNat)).toNat = n.toNat ∧
      1 ≤ (toWord (n.toNat / d.toNat)).toNat := by
  have hpos : 0 < d.toNat := Nat.pos_of_dvd_of_pos hdvd hn
  have hne : d.toNat ≠ 1 := fun e => hd (BitVec.eq_of_toNat_eq e)
  rw [toNat_toWord ((Nat.div_le_self _ _).trans_lt n.isLt)]
  exact ⟨by omega, Nat.mul_div_cancel' hdvd, Nat.div_pos (Nat.le_of_dvd hn hdvd) hpos⟩

/-- The divisors of a product of two primes. -/
theorem dvd_prime_mul_prime {d a b : Nat} (ha : a.Prime) (hb : b.Prime) (h : d ∣ a * b) (h1 : d ≠ 1) :
    d ∈ [a, b, a * b] := by
  obtain ⟨x, y, hx, hy, rfl⟩ := Nat.dvd_mul.1 h
  rcases (Nat.dvd_prime ha).1 hx with rfl | rfl <;> rcases (Nat.dvd_prime hb).1 hy with rfl | rfl
  · exact absurd rfl h1
  · simp
  · simp
  · simp

/-- Settles O22: the command completes in the third case of O20 only, and the gcd divides `n`. -/
theorem factorResultDivides : Obligations.FactorResultDivides := by
  intro s t hb hdone h ht
  obtain ⟨hn, rfl⟩ := exec_next_of_busy hb h
  obtain ⟨hl, hd⟩ := rhoD_ne_one_of_done hdone ht
  have hdvd := rhoAdvance_d_dvd Config.prh1 hn
  obtain ⟨h2, hmul, h1⟩ := divisor_cofactor hn hdvd hd
  rw [engineOf, rhoIteration_found hl hd]
  exact ⟨h2, hdvd, hmul, h1, fun a b ha hprime _ hab => dvd_prime_mul_prime ha hprime (hab ▸ hdvd) (Nat.ne_of_gt h2)⟩

/-! ## A run of the engine -/

/-- The block after `k` iterations. -/
def rhoRun (k : Nat) (s : State) : State := (rhoIteration Config.prh1)^[k] s

@[simp] theorem rhoRun_zero (s : State) : rhoRun 0 s = s := rfl

theorem rhoRun_succ (k : Nat) (s : State) : rhoRun (k + 1) s = rhoIteration Config.prh1 (rhoRun k s) :=
  Function.iterate_succ_apply' _ _ _

/-- The environment's fields pass through an iteration. -/
theorem rhoIteration_env (p : Params) (s : State) (es : List Event) (r : Option Response) (h : HostState) :
    rhoIteration p { s with events := es, rsp := r, host := h } =
      { rhoIteration p s with events := es, rsp := r, host := h } := by
  cases hl : limitReached s with
  | true =>
    rw [rhoIteration_limit p hl]
    exact rhoIteration_limit p hl
  | false =>
    rcases rhoIteration_cases p hl with ⟨hd, hc, e⟩ | ⟨hd, hc, e⟩ | ⟨hd, e⟩ <;> rw [e]
    · exact rhoIteration_inside (s := { s with events := es, rsp := r, host := h }) hl hd hc
    · exact rhoIteration_batchEnd (s := { s with events := es, rsp := r, host := h }) hl hd hc
    · exact rhoIteration_found (s := { s with events := es, rsp := r, host := h }) hl hd

theorem rhoIteration_sameBlock (h : SameBlock s u) :
    SameBlock (rhoIteration Config.prh1 s) (rhoIteration Config.prh1 u) := by
  have e := rhoIteration_env Config.prh1 s u.events u.rsp u.host
  have hhost : (rhoIteration Config.prh1 s).host = s.host := (engineOf_sameHostSide .factor s).host
  rw [← h.eq] at e
  exact ⟨by rw [e], by rw [e, hhost]; exact h.vars⟩

/-- R47: the snapshots and `ENG_OP` stand. -/
theorem rhoRun_keeps (k : Nat) (s : State) :
    (rhoRun k s).sa = s.sa ∧ (rhoRun k s).slim = s.slim ∧ (rhoRun k s).engOp = s.engOp := by
  induction k with
  | zero => exact ⟨rfl, rfl, rfl⟩
  | succ k ih =>
    obtain ⟨-, -, -, -, -, -, -, hsa, -, -, hslim, hop, -⟩ := engineOf_keeps .factor (rhoRun k s)
    obtain ⟨ihsa, ihslim, ihop⟩ := ih
    rw [rhoRun_succ]
    exact ⟨hsa.trans ihsa, hslim.trans ihslim, hop.trans ihop⟩

theorem rhoRun_busy_of_succ (h : (rhoRun (k + 1) s).busy = true) : (rhoRun k s).busy = true := by
  rw [rhoRun_succ] at h
  exact (rhoIteration_busy h).1

/-- R36: no iteration starts a command. -/
theorem rhoRun_busy_of_le (hjk : j ≤ k) (h : (rhoRun k s).busy = true) : (rhoRun j s).busy = true := by
  induction k, hjk using Nat.le_induction with
  | base => exact h
  | succ k _ ih => exact ih (rhoRun_busy_of_succ h)

/-- The engine's turn of `FACTOR` (R183). -/
theorem step_factor (hb : s.busy = true) (ho : s.engOp = Instr.factor.opcode) (hn : 1 ≤ s.sa.toNat) :
    step { s with events := [.engine] } = .next (rhoIteration Config.prh1 { s with events := [] }) :=
  (step_engine (s := { s with events := [.engine] }) rfl hb ho).trans
    (exec_of_domain (i := .factor) (s := { s with events := [] }) hb hn)

/-- The engine's turns of `FACTOR` are its iterations, up to the step that ends the command (R183). -/
theorem runSchedule_engineOnly (ho : s.engOp = Instr.factor.opcode) (hn : 1 ≤ s.sa.toNat)
    (hb : ∀ j < k, (rhoRun j s).busy = true) :
    ∃ t, runSchedule engineOnly k s = .next t ∧ SameBlock (rhoRun k s) t := by
  induction k with
  | zero => exact ⟨s, rfl, .refl s⟩
  | succ k ih =>
    obtain ⟨t, ht, hst⟩ := ih fun j hj => hb j (by omega)
    obtain ⟨hsa, -, hop⟩ := rhoRun_keeps k s
    have hu : SameBlock (rhoRun k s) { t with events := [] } := hst.trans (.events t [])
    have hsa' : t.sa = s.sa := by rw [hst.eq]; exact hsa
    have hstep := step_factor (hst.busy.trans (hb k (by omega))) (hst.engOp.trans (hop.trans ho)) (hsa' ▸ hn)
    exact ⟨_, (runSchedule_succ ht).trans hstep, by rw [rhoRun_succ]; exact rhoIteration_sameBlock hu⟩

/-- Once the iterations have ended the command, so has the engine, at the step that did it. -/
theorem exists_last_step (ho : s.engOp = Instr.factor.opcode) (hn : 1 ≤ s.sa.toNat) (hb : s.busy = true)
    (h : (rhoRun k s).busy = false) :
    ∃ j < k, (rhoRun j s).busy = true ∧ (rhoRun (j + 1) s).busy = false ∧
      ∃ t, runSchedule engineOnly (j + 1) s = .next t ∧ SameBlock (rhoRun (j + 1) s) t := by
  induction k with
  | zero => exact absurd hb (ne_true_of_eq_false h)
  | succ k ih =>
    cases hk : (rhoRun k s).busy with
    | false =>
      obtain ⟨j, hj, rest⟩ := ih hk
      exact ⟨j, by omega, rest⟩
    | true =>
      have hbefore (i : Nat) (hi : i < k + 1) : (rhoRun i s).busy = true := rhoRun_busy_of_le (by omega) hk
      exact ⟨k, by omega, hk, h, runSchedule_engineOnly ho hn hbefore⟩

/-! ## `n = 1` -/

/-- R148: modulo 1 the value is 0 and the gcd 1, so the command goes on. -/
theorem rhoIteration_one (h1 : s.sa = 1) (hs : s.slim = 0) :
    (rhoIteration p s).busy = s.busy ∧ (rhoIteration p s).done = s.done ∧ (rhoIteration p s).err = s.err ∧
      (rhoIteration p s).rhoX = 0 := by
  have hl : limitReached s = false := by simp [limitReached, hs]
  have hx : (rhoAdvance p s).rhoX = 0 := by simp [h1, rhoMap, Nat.mod_one]
  have hd : (rhoAdvance p s).rhoD = 1 := by simp [h1]
  rcases rhoIteration_cases p hl with ⟨-, -, e⟩ | ⟨-, -, e⟩ | ⟨hd', -⟩
  · rw [e]; exact ⟨rfl, rfl, rfl, hx⟩
  · rw [e]; exact ⟨rfl, rfl, rfl, hx⟩
  · exact absurd hd hd'

/-- R148: on 1 the command is in flight for ever. -/
theorem rhoRun_one (h1 : s.sa = 1) (hs : s.slim = 0) (k : Nat) :
    (rhoRun k s).busy = s.busy ∧ (rhoRun k s).done = s.done ∧ (rhoRun k s).err = s.err ∧
      (1 ≤ k → (rhoRun k s).rhoX = 0) := by
  induction k with
  | zero => exact ⟨rfl, rfl, rfl, fun h => absurd h (by decide)⟩
  | succ k ih =>
    obtain ⟨hsa, hslim, -⟩ := rhoRun_keeps k s
    obtain ⟨hb, hd, he, -⟩ := ih
    obtain ⟨hb', hd', he', hx⟩ := rhoIteration_one (p := Config.prh1) (hsa.trans h1) (hslim.trans hs)
    rw [rhoRun_succ]
    exact ⟨hb'.trans hb, hd'.trans hd, he'.trans he, fun _ => hx⟩

/-- R46: while the command goes on, `ITER_COUNT` counts the iterations. -/
theorem rhoRun_iterCount (h : (rhoRun k s).busy = true) : (rhoRun k s).iterCount = s.iterCount + BitVec.ofNat 64 k := by
  induction k with
  | zero => simp
  | succ k ih =>
    have hk := rhoRun_busy_of_succ h
    rw [rhoRun_succ] at h ⊢
    obtain ⟨-, hl, -⟩ := rhoIteration_busy h
    rw [rhoIteration_iterCount hl, ih hk, BitVec.ofNat_add, BitVec.add_assoc]
    rfl

/-- Settles O23: no iteration of `rhoRun` on 1 ends the command. -/
theorem factorOneNeverEnds : Obligations.FactorOneNeverEnds := by
  intro s hb ho h1 hs k
  have hone := rhoRun_one h1 hs
  have hbusy (j : Nat) : (rhoRun j s).busy = true := (hone j).1.trans hb
  obtain ⟨t, ht, hst⟩ := runSchedule_engineOnly (k := k) ho (by rw [h1]; decide) fun j _ => hbusy j
  obtain ⟨-, hdone, herr, hx⟩ := hone k
  refine ⟨t, ht, hst.busy.trans (hbusy k), hst.done.trans hdone, hst.err.trans herr, ?_, fun hk => ?_⟩
  · rw [hst.eq]; exact rhoRun_iterCount (hbusy k)
  · rw [hst.eq]; exact hx hk

/-! ## With a limit -/

/-- R144: the count never passes the limit. -/
theorem rhoRun_iterCount_le (h : s.slim ≠ 0 → s.iterCount.toNat ≤ s.slim.toNat) (hs : s.slim ≠ 0) (k : Nat) :
    (rhoRun k s).iterCount.toNat ≤ s.slim.toNat := by
  induction k with
  | zero => exact h hs
  | succ k ih =>
    obtain ⟨-, hslim, -⟩ := rhoRun_keeps k s
    rw [rhoRun_succ]
    cases hl : limitReached (rhoRun k s) with
    | true => rw [rhoIteration_limit _ hl]; exact ih
    | false =>
      rw [rhoIteration_iterCount hl, ← hslim]
      rw [← hslim] at ih hs
      exact iterCount_succ_le (fun _ => ih) (mt limitReached_iff.2 (ne_true_of_eq_false hl)) hs

/-- R144: after the iterations left the count is at the limit, and one more step ends the command. -/
theorem rhoRun_limit (h : s.iterCount.toNat ≤ s.slim.toNat) (hs : s.slim ≠ 0) :
    (rhoRun (s.slim.toNat - s.iterCount.toNat + 1) s).busy = false := by
  refine Bool.eq_false_iff.2 fun hb => ?_
  have hcount := rhoRun_iterCount (rhoRun_busy_of_succ hb)
  rw [rhoRun_succ] at hb
  obtain ⟨-, hl, -⟩ := rhoIteration_busy hb
  obtain ⟨-, hslim, -⟩ := rhoRun_keeps (s.slim.toNat - s.iterCount.toNat) s
  have hreach : (rhoRun (s.slim.toNat - s.iterCount.toNat) s).iterCount = s.slim := by
    rw [hcount]
    apply BitVec.eq_of_toNat_eq
    have := s.slim.isLt
    rw [BitVec.toNat_add, BitVec.toNat_ofNat]
    omega
  exact ne_true_of_eq_false hl (limitReached_iff.2 ⟨by rw [hslim]; exact hs, hreach.trans hslim.symm⟩)

theorem Inv.one_le_sa_of_factor (h : Inv s) (hb : s.busy = true) (ho : s.engOp = Instr.factor.opcode) : 1 ≤ s.sa.toNat :=
  (domainOk_iff_domain .factor _ _ _).1 (h.domainOk_of_engOp hb ho)

/-- Settles O25: the run ends at its limit at the latest. -/
theorem factorEndsWithinItsLimit : Obligations.FactorEndsWithinItsLimit := by
  intro s h hb ho hs
  have hlim := (h.rho hb ho).limit
  obtain ⟨j, hj, -, hidle, t, ht, hst⟩ := exists_last_step ho (h.one_le_sa_of_factor hb ho) hb (rhoRun_limit (hlim hs) hs)
  refine ⟨j + 1, t, hj, ht, hst.busy.trans hidle, ?_⟩
  rw [hst.eq]
  exact rhoRun_iterCount_le hlim hs (j + 1)

/-! ## Without a limit -/

theorem Inv.rhoRun (h : Inv s) (ho : s.engOp = Instr.factor.opcode) (hb : (rhoRun k s).busy = true) :
    Inv (rhoRun k s) := by
  induction k with
  | zero => exact h
  | succ k ih =>
    have hk := rhoRun_busy_of_succ hb
    obtain ⟨-, -, hop⟩ := rhoRun_keeps k s
    rw [rhoRun_succ]
    exact (ih hk).engineOf hk (hop.trans ho)

/-- R147: an iteration's effect on the batch, as numbers. -/
theorem rhoIteration_batch (h : RhoInv s) (hb : (rhoIteration p s).busy = true) :
    (s.rhoCnt.toNat + 1 ≠ s.rhoBatch.toNat ∧ (rhoIteration p s).rhoY.toNat = s.rhoY.toNat ∧
      (rhoIteration p s).rhoCnt.toNat = s.rhoCnt.toNat + 1 ∧
      (rhoIteration p s).rhoBatch.toNat = s.rhoBatch.toNat) ∨
    (s.rhoCnt.toNat + 1 = s.rhoBatch.toNat ∧ (rhoIteration p s).rhoY.toNat = (rhoIteration p s).rhoX.toNat ∧
      (rhoIteration p s).rhoCnt.toNat = 0 ∧
      (rhoIteration p s).rhoBatch.toNat = min (2 * s.rhoBatch.toNat) (2 ^ 63)) := by
  have hcnt : (s.rhoCnt + 1).toNat = s.rhoCnt.toNat + 1 := by
    have := h.cntBound
    bv_omega
  obtain ⟨-, -, -, ⟨hc, e⟩ | ⟨hc, e⟩⟩ := rhoIteration_busy hb <;> rw [e]
  · exact .inl ⟨fun x => hc (BitVec.eq_of_toNat_eq (hcnt.trans x)), rfl, hcnt, rfl⟩
  · exact .inr ⟨by rw [← hcnt, hc], rfl, rfl, toNat_toWord ((min_le_right _ _).trans_lt (by decide))⟩

/-- R142: while the command goes on, `RHO_X` follows the map. -/
theorem rhoIteration_x (hn : 1 ≤ s.sa.toNat) (hb : (rhoIteration p s).busy = true) :
    (rhoIteration p s).rhoX.toNat = rhoMap p s.sa.toNat s.rhoX.toNat := by
  obtain ⟨-, -, -, ⟨-, e⟩ | ⟨-, e⟩⟩ := rhoIteration_busy hb <;> rw [e] <;> exact rhoAdvance_x p hn

/-- R143: a value equal to the checkpoint ends the command, for `gcd(0, n) = n`. -/
theorem rhoIteration_x_ne_y (hn : 2 ≤ s.sa.toNat) (hb : (rhoIteration p s).busy = true) :
    (rhoIteration p s).rhoX.toNat ≠ s.rhoY.toNat := by
  intro hxy
  obtain ⟨-, -, hd, -⟩ := rhoIteration_busy hb
  have hgcd := rhoAdvance_d p (s := s) (by omega)
  rw [hd, ← rhoIteration_x (by omega) hb, hxy, absDiff_eq, max_self, min_self, Nat.sub_self, Nat.gcd_zero_left] at hgcd
  exact absurd hgcd (Nat.ne_of_lt hn)

/-- The orbit of `RHO_X`: its value after each number of iterations (R141). -/
def rhoValue (s : State) (k : Nat) : Nat := (rhoRun k s).rhoX.toNat

/-- A run without end would fill batch after batch (R147). -/
theorem rhoRun_batches (hrho : ∀ k, RhoInv (rhoRun k s)) (hb : ∀ k, (rhoRun k s).busy = true) :
    Batches (rhoValue s) (fun k => (rhoRun k s).rhoY.toNat)
      (fun k => (rhoRun k s).rhoCnt.toNat) (fun k => (rhoRun k s).rhoBatch.toNat) where
  inside k := (hrho k).cntBound
  bound k := by
    obtain ⟨e, -, he, hpow⟩ := (hrho k).batchPow
    exact hpow.trans_le (Nat.pow_le_pow_right (by decide) he)
  next k := by
    have hsucc := hb (k + 1)
    simp only [rhoValue, rhoRun_succ] at hsucc ⊢
    exact rhoIteration_batch (hrho k) hsucc

/-- R148: for `n ≥ 2` no run goes on for ever: its values repeat, and a large enough batch meets the repetition. -/
theorem exists_rhoRun_idle (h : Inv s) (ho : s.engOp = Instr.factor.opcode) (hn : 2 ≤ s.sa.toNat) :
    ∃ k, (rhoRun k s).busy = false := by
  by_contra hnever
  have hb (k : Nat) : (rhoRun k s).busy = true := eq_true_of_ne_false fun hk => hnever ⟨k, hk⟩
  have hsa (k : Nat) : (rhoRun k s).sa = s.sa := (rhoRun_keeps k s).1
  have hrho (k : Nat) : RhoInv (rhoRun k s) := (h.rhoRun ho (hb k)).rho (hb k) ((rhoRun_keeps k s).2.2.trans ho)
  have hstep (k : Nat) : (rhoIteration Config.prh1 (rhoRun k s)).busy = true := rhoRun_succ k s ▸ hb (k + 1)
  have hmap (k : Nat) : rhoValue s (k + 1) = rhoMap Config.prh1 s.sa.toNat (rhoValue s k) := by
    rw [rhoValue, rhoRun_succ, rhoIteration_x (by rw [hsa]; omega) (hstep k), hsa, rhoValue]
  obtain ⟨m, len, h1, hlen, hrep⟩ := rhoMap_repeats Config.prh1 (Nat.le_of_succ_le hn) (rhoValue s) hmap
  have hlen' : len ≤ 2 ^ 63 := by have := s.sa.isLt; omega
  obtain ⟨k, hk⟩ := (rhoRun_batches hrho hb).meets h1 hlen' (orbit_periodic hmap hrep)
  rw [rhoValue, rhoRun_succ] at hk
  exact rhoIteration_x_ne_y (by rw [hsa]; exact hn) (hstep k) hk

/-- Settles O24: the run ends, and without a limit only O22's completion ends it. -/
theorem factorEndsForEveryNumberFromTwo : Obligations.FactorEndsForEveryNumberFromTwo := by
  intro s h hb ho hn hs
  obtain ⟨k, hk⟩ := exists_rhoRun_idle h ho hn
  obtain ⟨j, -, hbusy, hidle, t, ht, hst⟩ := exists_last_step ho (by omega) hb hk
  obtain ⟨hsa, hslim, hop⟩ := rhoRun_keeps j s
  have hinv := h.rhoRun ho hbusy
  have hexec := exec_busy (i := .factor) hbusy (hinv.domainOk_of_engOp hbusy (hop.trans ho))
  rw [rhoRun_succ] at hidle hst
  have hdone := rhoIteration_done_of_idle hbusy (by simp [limitReached, hslim, hs]) hidle
  obtain ⟨h2, -, hmul, -⟩ := factorResultDivides _ _ hbusy (hinv.quiet hbusy).1 hexec hdone
  obtain ⟨h0, h1⟩ := hst.results
  refine ⟨j + 1, t, ht, hst.busy.trans hidle, hst.done.trans hdone, ?_, ?_⟩
  · rw [h0]; exact h2
  · rw [h0, h1, ← hsa]; exact hmul

end Sys2Proof.Machine
end

section
/-! PROOFS. The modular-inverse engine (spec/42_modinv.md): its failure at accept (O8), what its engine step writes (O26), and
the RSA round trip of `MODPOW` and `MODINV` (O29). -/

namespace Sys2Proof.Machine

variable {i : Instr} {s t : State}

/-! ## The accept -/

/-- R181: the accept of a command whose operands lie outside its domain. -/
theorem exec_idle_outOfDomain (hb : s.busy = false) (hd : ¬ Spec.domain i s.opa s.opb s.opc) :
    exec i s = .next (Spec.failed 2 (Spec.cleared i.opcode s)) := by
  have hbad : domainOk i s.opa s.opb s.opc = false := Bool.eq_false_iff.2 (mt (domainOk_iff_domain ..).1 hd)
  rw [exec_idle i hb, accept_bad _ hbad]
  rfl

/-- Settles O8: `phi = 0` is outside the domain of `MODINV`, `1 ≤ phi`. -/
theorem modinvByZeroFailsAtAccept : Obligations.ModinvByZeroFailsAtAccept := by
  intro s es h hb hphi
  have hd : ¬ Spec.domain .modinv s.opa s.opb s.opc := by simp [Spec.domain, hphi]
  rw [step_command h hb (decode_encode .modinv)]
  exact exec_idle_outOfDomain hb hd

/-! ## The engine step -/

/-- R162: the degenerate modulus. -/
theorem modinvStep_one (h : s.sb.toNat = 1) : modinvStep s = Spec.completed 1 0 s := if_pos h

/-- R164: a common factor. -/
theorem modinvStep_common (h : s.sb.toNat ≠ 1) (hg : Nat.gcd (s.sa.toNat % s.sb.toNat) s.sb.toNat ≠ 1) :
    modinvStep s = Spec.failed 3 s := (if_neg h).trans (if_pos hg)

/-- R161: no common factor. -/
theorem modinvStep_coprime (h : s.sb.toNat ≠ 1) (hg : Nat.gcd (s.sa.toNat % s.sb.toNat) s.sb.toNat = 1) :
    modinvStep s = Spec.completed (toWord (inverse s.sa.toNat s.sb.toNat)) 0 s :=
  (if_neg h).trans (if_neg (not_not.2 hg))

/-- Settles O26: the three cases of the engine step; in the last, `inverse` is in range and any other inverse in range is
equal to it. -/
theorem modinvWritesTheInverse : Obligations.ModinvWritesTheInverse := by
  intro s hb
  have hstep (hphi : 1 ≤ s.sb.toNat) : exec .modinv s = .next (modinvStep s) := exec_of_domain hb hphi
  refine ⟨fun h1 => ?one, fun h2 hg => ?common, fun h2 hg => ?coprime⟩
  case one => rw [hstep h1.ge, modinvStep_one h1]
  case common => rw [hstep (by omega), modinvStep_common (by omega) hg]
  case coprime =>
    obtain ⟨hpos, hlt, hinv⟩ := inverse_spec h2 hg
    have hd : (toWord (inverse s.sa.toNat s.sb.toNat)).toNat = inverse s.sa.toNat s.sb.toNat :=
      toNat_toWord (hlt.trans s.sb.isLt)
    refine ⟨toWord (inverse s.sa.toNat s.sb.toNat), ?_⟩
    rw [hd]
    refine ⟨hpos, Nat.le_sub_one_of_lt hlt, hinv, fun d' _ hle hinv' => ?_, ?_⟩
    · exact inverse_unique (by omega) hlt hinv' hinv
    · rw [hstep (by omega), modinvStep_coprime (by omega) hg]

/-- R161: what a `MODINV` in flight leaves in `RES0`, for a modulus from 2 on without a common factor. -/
theorem mul_modinv_res0 (hb : s.busy = true) (h2 : 2 ≤ s.sb.toNat) (hg : Nat.Coprime s.sa.toNat s.sb.toNat)
    (h : exec .modinv s = .next t) : s.sa.toNat * t.res0.toNat % s.sb.toNat = 1 := by
  have hg' : Nat.gcd (s.sa.toNat % s.sb.toNat) s.sb.toNat = 1 := by
    rw [← Nat.gcd_rec, Nat.gcd_comm]
    exact hg
  obtain ⟨d, -, -, hinv, -, hexec⟩ := (modinvWritesTheInverse s hb).2.2 h2 hg'
  cases hexec.symm.trans h
  exact hinv

/-- R171: what a `MODPOW` in flight leaves in `RES0`. -/
theorem modpow_res0 (hb : s.busy = true) (h : exec .modpow s = .next t) :
    t.res0.toNat = s.sa.toNat ^ s.sb.toNat % s.sc.toNat := by
  obtain ⟨hm, rfl⟩ := exec_next_of_busy hb h
  have hlt : s.sa.toNat ^ s.sb.toNat % s.sc.toNat < 2 ^ 64 := (Nat.mod_lt _ hm).trans s.sc.isLt
  show (toWord (powMod s.sa.toNat s.sb.toNat s.sc.toNat)).toNat = _
  rw [powMod_word, toNat_toWord hlt]

/-! ## The round trip -/

/-- Fermat's little theorem for every base, multiples of the prime included. -/
theorem pow_mul_pred_add_one_modEq {p : Nat} (hp : p.Prime) (a k : Nat) : a ^ ((p - 1) * k + 1) ≡ a [MOD p] := by
  by_cases hdvd : p ∣ a
  · have ha : a ≡ 0 [MOD p] := Nat.modEq_zero_iff_dvd.2 hdvd
    exact (Nat.modEq_zero_iff_dvd.2 (dvd_pow hdvd (Nat.succ_ne_zero _))).trans ha.symm
  · have hfermat : a ^ (p - 1) ≡ 1 [MOD p] :=
      Nat.totient_prime hp ▸ Nat.ModEq.pow_totient (hp.coprime_iff_not_dvd.2 hdvd).symm
    calc a ^ ((p - 1) * k + 1) = (a ^ (p - 1)) ^ k * a := by rw [pow_succ, pow_mul]
      _ ≡ 1 ^ k * a [MOD p] := (hfermat.pow k).mul_right a
      _ = a := by rw [one_pow, one_mul]

/-- An exponent that is 1 modulo `(p - 1)(q - 1)` leaves every number below `p * q` as it is. -/
theorem pow_mod_prime_mul_prime {p q x a : Nat} (hp : p.Prime) (hq : q.Prime) (hne : p ≠ q)
    (hx : x % ((p - 1) * (q - 1)) = 1) (ha : a < p * q) : a ^ x % (p * q) = a := by
  obtain ⟨k, rfl⟩ : ∃ k, x = (p - 1) * (q - 1) * k + 1 := ⟨_, hx ▸ (Nat.div_add_mod x _).symm⟩
  have hmodp : a ^ ((p - 1) * (q - 1) * k + 1) ≡ a [MOD p] := by
    rw [mul_assoc]
    exact pow_mul_pred_add_one_modEq hp a _
  have hmodq : a ^ ((p - 1) * (q - 1) * k + 1) ≡ a [MOD q] := by
    rw [mul_comm (p - 1), mul_assoc]
    exact pow_mul_pred_add_one_modEq hq a _
  have hcop : Nat.Coprime p q := (Nat.coprime_primes hp hq).2 hne
  exact Nat.mod_eq_of_modEq ((Nat.modEq_and_modEq_iff_modEq_mul hcop).1 ⟨hmodp, hmodq⟩) ha

/-- The totient of a product of two distinct primes is not the degenerate modulus of R162. -/
theorem two_le_pred_mul_pred {p q : Nat} (hp : p.Prime) (hq : q.Prime) (hne : p ≠ q) : 2 ≤ (p - 1) * (q - 1) := by
  have hp2 := hp.two_le
  have hq2 := hq.two_le
  rcases Nat.lt_or_gt_of_ne hne with h | h
  · exact Nat.mul_le_mul (show 1 ≤ p - 1 by omega) (show 2 ≤ q - 1 by omega)
  · exact Nat.mul_le_mul (show 2 ≤ p - 1 by omega) (show 1 ≤ q - 1 by omega)

/-- Settles O29: the two powers are the power with `e * d`, and `e * d` is 1 modulo the totient. -/
theorem rsaRoundTrip : Obligations.RsaRoundTrip := by
  intro p q s1 s2 s3 t1 t2 t3 hp hq hne _ hb1 hb2 hb3 hn hmsg he hphi hcop hx1 hx2 hsa hsb hsc hx3
  have hed : s1.sb.toNat * t2.res0.toNat % ((p - 1) * (q - 1)) = 1 := by
    rw [← he, ← hphi]
    exact mul_modinv_res0 hb2 (hphi ▸ two_le_pred_mul_pred hp hq hne) hcop hx2
  apply BitVec.eq_of_toNat_eq
  calc t3.res0.toNat = t1.res0.toNat ^ t2.res0.toNat % (p * q) := by rw [modpow_res0 hb3 hx3, hsa, hsb, hsc, hn]
    _ = (s1.sa.toNat ^ s1.sb.toNat % (p * q)) ^ t2.res0.toNat % (p * q) := by rw [modpow_res0 hb1 hx1, hn]
    _ = s1.sa.toNat ^ (s1.sb.toNat * t2.res0.toNat) % (p * q) := by rw [← Nat.pow_mod, ← pow_mul]
    _ = s1.sa.toNat := pow_mod_prime_mul_prime hp hq hne hed hmsg

end Sys2Proof.Machine
end

section
/-! PROOFS. The modular-exponentiation engine (spec/43_modpow.md): the power its engine step writes (O27), and the exponent 0
and the modulus 1 (O28). -/

namespace Sys2Proof.Machine

/-- Settles O27: the modulus is in the domain, and `RES0` after the engine step is the power. -/
theorem modpowWritesThePower : Obligations.ModpowWritesThePower := by
  intro s hb hm
  have hexec : exec .modpow s = .next (modpowStep s) := exec_of_domain hb hm
  exact ⟨(modpowStep s).res0, modpow_res0 hb hexec, hexec⟩

/-- R171 for a known value of the power. -/
theorem exec_modpow_of_pow_mod {s : State} {v : Word} (hb : s.busy = true) (hm : 1 ≤ s.sc.toNat)
    (hv : s.sa.toNat ^ s.sb.toNat % s.sc.toNat = v.toNat) : exec .modpow s = .next (Spec.completed v 0 s) := by
  obtain ⟨r, hr, hexec⟩ := modpowWritesThePower s hb hm
  obtain rfl : r = v := BitVec.eq_of_toNat_eq (hr.trans hv)
  exact hexec

/-- Settles O28: `b^0 = 1` is below a modulus from 2 on, and every number is 0 modulo 1. -/
theorem modpowEdgeCases : Obligations.ModpowEdgeCases := by
  intro s hb
  refine ⟨fun hx hm => ?zeroExponent, fun hm => ?modulusOne⟩
  case zeroExponent =>
    have hx0 : s.sb.toNat = 0 := congrArg BitVec.toNat hx
    refine exec_modpow_of_pow_mod hb (by omega) ?_
    rw [hx0, pow_zero]
    exact Nat.mod_eq_of_lt hm
  case modulusOne =>
    have hm1 : s.sc.toNat = 1 := congrArg BitVec.toNat hm
    refine exec_modpow_of_pow_mod hb hm1.ge ?_
    rw [hm1]
    exact Nat.mod_one _

end Sys2Proof.Machine
end

section
/-! PROOFS. Control of commands (spec/44_control.md): that the host's accesses do not reach the command in flight (O42), the
accept (O5, O6, O9), the engine step (O10, O32, O52), and the writes to `CMD` that lead to them or are dropped (O4, O7). -/

namespace Sys2Proof.Machine

variable {i : Instr} {s t u : State} {es : List Event}

/-! ## The engine does not see the host's side -/

/-- `s` with the host's side of `h`: the registers the engine neither reads nor writes (R42, R186), and the environment. -/
def withHostSide (s h : State) : State :=
  { s with
    opa := h.opa, opb := h.opb, opc := h.opc, iterLimit := h.iterLimit, ieDone := h.ieDone, ieErr := h.ieErr,
    ovr := h.ovr, events := h.events, rsp := h.rsp, host := h.host }

theorem withHostSide_ite {c : Prop} [Decidable c] (s t h : State) :
    withHostSide (if c then s else t) h = if c then withHostSide s h else withHostSide t h :=
  apply_ite (withHostSide · h) c s t

theorem rhoBatchEnd_withHostSide (s h : State) :
    rhoBatchEnd (withHostSide s h) = withHostSide (rhoBatchEnd s) h := by
  simp only [rhoBatchEnd, withHostSide_ite]
  rfl

theorem rhoIteration_withHostSide (p : Params) (s h : State) :
    rhoIteration p (withHostSide s h) = withHostSide (rhoIteration p s) h := by
  have hadvance : rhoAdvance p (withHostSide s h) = withHostSide (rhoAdvance p s) h := rfl
  simp only [rhoIteration, withHostSide_ite, hadvance, rhoBatchEnd_withHostSide]
  rfl

/-- R186, R188: an engine step neither reads nor writes the host's side. -/
theorem engineOf_withHostSide (i : Instr) (s h : State) :
    engineOf i (withHostSide s h) = withHostSide (engineOf i s) h := by
  cases i with
  | factor => exact rhoIteration_withHostSide _ s h
  | magic =>
    simp only [engineOf, magicStep, withHostSide_ite]
    rfl
  | modinv =>
    simp only [engineOf, modinvStep, withHostSide_ite]
    rfl
  | _ => rfl

/-- What the engine works on and the flags are all of the state but the host's side. -/
theorem eq_withHostSide (hv : Spec.engineView u = Spec.engineView s) (hd : u.done = s.done) (he : u.err = s.err)
    (hc : u.errcode = s.errcode) : u = withHostSide s u := by
  simp only [Spec.engineView, Prod.mk.injEq] at hv
  obtain ⟨hbusy, hlast, hop, ⟨hr0, hr1⟩, ⟨hsa, hsb, hsc, hslim⟩, hcount, hx, hy, hbatch, hcnt, hrd⟩ := hv
  simp only [withHostSide, ← hbusy, ← hlast, ← hop, ← hr0, ← hr1, ← hsa, ← hsb, ← hsc, ← hslim, ← hcount, ← hx, ← hy,
    ← hbatch, ← hcnt, ← hrd, ← hd, ← he, ← hc]

theorem busy_of_engineView_eq (hv : Spec.engineView u = Spec.engineView s) : u.busy = s.busy := congrArg Prod.fst hv

/-- R37, R38, R186: with a command in flight the flags are down, so that two states that agree on what the engine works on
differ in the host's side only, and so do they after the engine step. -/
theorem Inv.engineOf_congr (hs : Inv s) (hu : Inv u) (hb : s.busy = true)
    (hv : Spec.engineView u = Spec.engineView s) (i : Instr) :
    Machine.engineOf i u = withHostSide (Machine.engineOf i s) u := by
  obtain ⟨hsd, hse⟩ := hs.quiet hb
  obtain ⟨hud, hue⟩ := hu.quiet ((busy_of_engineView_eq hv).trans hb)
  have hcode : u.errcode = s.errcode := (hu.noCode hue).trans (hs.noCode hse).symm
  have he : u = withHostSide s u := eq_withHostSide hv (hud.trans hsd.symm) (hue.trans hse.symm) hcode
  exact (congrArg (Machine.engineOf i) he).trans (engineOf_withHostSide i s u)

/-! ## Accesses while a command is in flight -/

/-- A run through host accesses, none an abort, keeps what the engine works on (R42, R84). -/
theorem run_accesses {as : List Access} (has : ∀ a ∈ as, isAbort a = false) (hs : Inv s) (hb : s.busy = true)
    (he : s.events = as.map Event.access ++ es) :
    ∃ u, Inv u ∧ u.events = es ∧ Spec.engineView u = Spec.engineView s ∧
      ∀ k, Sys2Proof.core.run (as.length + k) s = Sys2Proof.core.run k u := by
  induction as generalizing s with
  | nil => exact ⟨s, hs, he, rfl, fun k => by rw [List.length_nil, Nat.zero_add]⟩
  | cons a as ih =>
    obtain ⟨ha, has⟩ := List.forall_mem_cons.1 has
    obtain ⟨w, hstep, hew, hvw⟩ := accessesKeepTheCommandInFlight s _ a he hb ha
    obtain ⟨u, hu, heu, hvu, hrun⟩ :=
      ih has (everyStepKeepsTheInvariant s w hs hstep) ((busy_of_engineView_eq hvw).trans hb) hew
    refine ⟨u, hu, heu, hvu.trans hvw, fun k => ?_⟩
    rw [List.length_cons, Nat.add_right_comm, run_succ _ hstep, hrun]

theorem Inv.withEvents (hs : Inv s) (es : List Event) : Inv { s with events := es } := hs.sameBlock (.events s es)

/-- The engine's turn in a state with the invariant is the engine step of the command in flight (R183). -/
theorem Inv.step_eq_engineOf (hs : Inv s) (hb : s.busy = true) (he : s.events = .engine :: es)
    (ho : s.engOp = i.opcode) : step s = .next (Machine.engineOf i { s with events := es }) :=
  (step_engine he hb ho).trans (exec_busy (s := { s with events := es }) hb (hs.domainOk_of_engOp hb ho))

/-- The same step, with the engine's turn placed before it. -/
theorem Inv.step_engineNext (hs : Inv s) (hb : s.busy = true) (ho : s.engOp = i.opcode) :
    step (Spec.engineNext s) = .next (Machine.engineOf i { s with events := [] }) :=
  (hs.withEvents [.engine]).step_eq_engineOf hb rfl ho

/-- Settles O42: the accesses leave a state that differs in the host's side only, and so it does after the engine's step. -/
theorem resultIndependentOfAccesses : Obligations.ResultIndependentOfAccesses := by
  intro s t as hs hb has ht
  obtain ⟨i, ho, -⟩ := hs.inFlight hb
  rw [hs.step_engineNext hb ho] at ht
  obtain rfl := Host.Outcome.next.inj ht
  obtain ⟨u, hu, heu, hvu, hrun⟩ := run_accesses has (hs.withEvents (as.map Event.access ++ [.engine])) hb rfl
  have hbu : u.busy = true := (busy_of_engineView_eq hvu).trans hb
  have hou : u.engOp = i.opcode := (congrArg (fun view => view.2.2.1) hvu).trans ho
  have hstep := hu.step_eq_engineOf hbu heu hou
  refine ⟨_, (hrun 1).trans (run_succ 0 hstep), ?_⟩
  rw [(hs.withEvents []).engineOf_congr (hu.withEvents []) hb hvu i]
  exact ⟨rfl, rfl, rfl, rfl⟩

/-! ## Accept -/

/-- Settles O5: the nibbles that the check unpacks are the bit fields of the table. -/
theorem domainCheckIsTheTable : Obligations.DomainCheckIsTheTable := domainOk_iff_domain

/-- R181: the accept of a command whose operands lie in its domain. -/
theorem exec_idle_of_domain (hb : s.busy = false) (hd : Spec.domain i s.opa s.opb s.opc) :
    exec i s = .next (Spec.accepted i s) := by
  rw [exec_idle i hb, accept_ok _ ((domainOk_iff_domain ..).2 hd)]
  cases i <;> rfl

/-- Settles O6: the illegal word, and a command's accept outside and inside its domain. -/
theorem acceptTransition : Obligations.AcceptTransition := by
  intro s es v h hb
  refine ⟨fun h8 => step_illegalWord h hb ((decode_illegal_iff v).2 h8), ?command⟩
  case command =>
    rintro i rfl
    have hop : (encode i).extractLsb' 0 8 = i.opcode := opcodeField_encode i
    rw [step_command h hb (decode_encode i), hop]
    have hidle : State.busy { s with events := es, rsp := some .written } = false := hb
    exact ⟨exec_idle_outOfDomain hidle, exec_idle_of_domain hidle⟩

/-- What `FACTOR` works on once accepted comes from the operands and the limit alone (R181). -/
theorem engineView_accepted_factor (s : State) : Spec.engineView (Spec.accepted .factor s) =
    (true, Instr.factor.opcode, Instr.factor.opcode, (0, 0), (s.opa, s.opb, s.opc, s.iterLimit), 0, 2, 2, 2, 0, 1) := rfl

/-- Settles O9: in the domain both accepts set the same flags and snapshots, outside it both fail alike. -/
theorem acceptForgetsEarlierCommands : Obligations.AcceptForgetsEarlierCommands := by
  intro i s t s' t' hsb htb ha hb hc hl hs ht
  by_cases hd : Spec.domain i s.opa s.opb s.opc
  · rw [exec_idle_of_domain hsb hd] at hs
    rw [exec_idle_of_domain htb (ha ▸ hb ▸ hc ▸ hd)] at ht
    cases hs
    cases ht
    cases i with
    | factor =>
      refine ⟨rfl, rfl, rfl, rfl, rfl, rfl, rfl, fun _ => ⟨rfl, ha, hb, hc, fun _ => ?_⟩⟩
      rw [engineView_accepted_factor, engineView_accepted_factor, ha, hb, hc, hl]
    | _ => exact ⟨rfl, rfl, rfl, rfl, rfl, rfl, rfl, fun _ => ⟨rfl, ha, hb, hc, nofun⟩⟩
  · rw [exec_idle_outOfDomain hsb hd] at hs
    rw [exec_idle_outOfDomain htb (ha ▸ hb ▸ hc ▸ hd)] at ht
    cases hs
    cases ht
    exact ⟨rfl, rfl, rfl, rfl, rfl, rfl, rfl, fun hbusy => absurd hbusy Bool.false_ne_true⟩

/-! ## Engine step -/

/-- Settles O10: `NOP` has no operand to be outside its domain. -/
theorem nopCompletes : Obligations.NopCompletes := fun _ hb => exec_busy (i := .nop) hb rfl

/-- R188: an engine step that does not end its command moves the rho registers only. -/
theorem engineOf_rhoMoved_of_busy (hb : (engineOf i s).busy = true) : RhoMoved s (engineOf i s) := by
  obtain ⟨w, hw, -, ⟨-, e⟩ | ⟨r0, r1, e⟩ | ⟨c, -, e⟩⟩ := engineOf_cases i s <;> rw [e] at hb ⊢
  · exact hw
  · exact absurd hb Bool.false_ne_true
  · exact absurd hb Bool.false_ne_true

/-- R184, R193: an engine step that ends its command sets exactly one of `DONE` and `ERR`. -/
theorem engineOf_done_eq_not_err (hb : s.busy = true) (hd : s.done = false) (he : s.err = false)
    (hend : (engineOf i s).busy = false) : (engineOf i s).done = !(engineOf i s).err := by
  obtain ⟨w, hw, -, ⟨-, e⟩ | ⟨r0, r1, e⟩ | ⟨c, -, e⟩⟩ := engineOf_cases i s <;> rw [e] at hend ⊢
  · rw [hw.eq] at hend
    exact absurd hb (ne_true_of_eq_false hend)
  · rw [finish_done, finish_err, hw.err, he]
    rfl
  · rw [raiseErr_done, raiseErr_err, hw.done, hd]
    rfl

/-- Settles O32: what no engine step touches, and then the step that goes on and the step that ends its command. -/
theorem engineStepFrame : Obligations.EngineStepFrame := by
  intro i s t hb hd he h
  obtain ⟨-, rfl⟩ := exec_next_of_busy hb h
  obtain ⟨hopa, hopb, hopc, hlim, hieDone, hieErr, hovr, hsa, hsb, hsc, hslim, hop, hlast, -⟩ := engineOf_keeps i s
  refine ⟨hopa, hopb, hopc, hlim, hieDone, hieErr, hovr, hsa, hsb, hsc, hslim, hop, hlast, fun hgo => ?_,
    engineOf_done_eq_not_err hb hd he⟩
  have hw := engineOf_rhoMoved_of_busy hgo
  exact ⟨hw.done.trans hd, hw.err.trans he, hw.errcode, hw.res0, hw.res1, hw.eq⟩

theorem engineOf_busy_of_ne_factor (hi : i ≠ .factor) (s : State) : (engineOf i s).busy = false := by
  rcases engineOf_ends hi s with ⟨r0, r1, e⟩ | e | ⟨-, e⟩ <;> rw [e] <;> rfl

/-- Settles O52: the invariant names the command in flight and keeps its flags down. -/
theorem oneEngineStepEndsEveryOtherCommand : Obligations.OneEngineStepEndsEveryOtherCommand := by
  intro s hs hb hne
  obtain ⟨i, ho, -⟩ := hs.inFlight hb
  obtain ⟨hd, he⟩ := hs.quiet hb
  have hi : i ≠ .factor := by
    rintro rfl
    exact hne ho
  have hend := engineOf_busy_of_ne_factor hi { s with events := [] }
  exact ⟨_, hs.step_engineNext hb ho, hend,
    engineOf_done_eq_not_err (s := { s with events := [] }) hb hd he hend⟩

/-! ## Writes to `CMD` -/

/-- The engine's turn with no event listed (R183; log 1). -/
theorem step_engine_noEvent (he : s.events = []) (hb : s.busy = true) (ho : s.engOp = i.opcode) : step s = exec i s := by
  simp [step, turn, he, hb, engineTurn, ho, Instr.ofOpcode_opcode, Turn.run]

/-- The word that `withFetchWord` places is the command's encoding (log 7). -/
theorem toWord_toNat_mod (v : Word) : toWord (v.toNat % 2 ^ 64) = v := by
  rw [Nat.mod_eq_of_lt v.isLt, toWord, BitVec.ofNat_toNat, BitVec.setWidth_eq]

/-- The step from a placed command word accepts that command (R181; log 7). -/
theorem step_withFetchWord (i : Instr) (s : State) :
    step (s.withFetchWord 64 (encode i).toNat) = exec i { s with busy := false, rsp := some .written } := by
  rw [State.withFetchWord, commandWritten, toWord_toNat_mod]
  exact step_command rfl rfl (decode_encode i)

/-- Settles O4: the accept, the engine's turn with an event and with none, and the placed word. -/
theorem stepRunsTheDecodedCommand : Obligations.StepRunsTheDecodedCommand := fun s _ _ i =>
  ⟨step_command, step_engine, step_engine_noEvent, step_withFetchWord i s⟩

/-- Settles O7: the busy branch of a write to `CMD`. -/
theorem commandWhileBusyIsDropped : Obligations.CommandWhileBusyIsDropped := by
  intro s es v h hb
  rw [step_write .cmd h]
  simp [writeReg, writeCmd, hb, Turn.run]

end Sys2Proof.Machine
end

section
/-! PROOFS. Exceptions and interrupts (spec/60_exceptions.md): the level of `irq` while a command is in flight and after its
end (O46), from the flags that its accept and its engine step leave. -/

namespace Sys2Proof.Machine

variable {i : Instr} {s t : State}

/-! ## The level, from the flags -/

/-- R48: with neither flag up, no enable raises `irq`. -/
theorem irq_of_quiet (hd : s.done = false) (he : s.err = false) : irq s = false := by simp [irq, hd, he]

/-- R48: with exactly one flag up, its enable is the level. -/
theorem irq_of_done_eq_not_err (h : s.done = !s.err) : irq s = if s.err then s.ieErr else s.ieDone := by
  cases he : s.err <;> simp [irq, h, he]

/-! ## The flags a command leaves -/

/-- R181: the accept that passes its checks lowers both flags. -/
theorem accept_err_of_busy (hb : (accept i (initOf i) s).busy = true) : (accept i (initOf i) s).err = false := by
  rcases accept_err i s with ⟨he, -⟩ | ⟨-, hidle, -⟩
  · exact he
  · exact absurd hb (ne_true_of_eq_false hidle)

/-- R181, R193: the accept that fails its checks raises `ERR`. -/
theorem accept_err_of_idle (hidle : (accept i (initOf i) s).busy = false) : (accept i (initOf i) s).err = true := by
  rcases accept_cases i s with ⟨hd, -⟩ | ⟨-, e⟩
  · exact absurd hd (ne_true_of_eq_false ((accept_busy i s).symm.trans hidle))
  · rw [e]
    rfl

/-- R37, R181, R184, R193: both flags are down while the command is in flight, and exactly one is up after its end. -/
theorem Inv.exec_flags (hs : Inv s) (h : exec i s = .next t) :
    (t.busy = true → t.done = false ∧ t.err = false) ∧ (t.busy = false → t.done = !t.err) := by
  rcases exec_next h with ⟨-, rfl⟩ | ⟨hb, -, rfl⟩
  · exact ⟨fun hgo => ⟨accept_done i s, accept_err_of_busy hgo⟩, fun hend => by
      rw [accept_done, accept_err_of_idle hend, Bool.not_true]⟩
  · obtain ⟨hd, he⟩ := hs.quiet hb
    refine ⟨fun hgo => ?_, engineOf_done_eq_not_err hb hd he⟩
    have hw := engineOf_rhoMoved_of_busy hgo
    exact ⟨hw.done.trans hd, hw.err.trans he⟩

/-- Settles O46: the flags decide the level, and no command writes the enables. -/
theorem interruptFollowsTheCommand : Obligations.InterruptFollowsTheCommand := by
  intro i s t hs h
  obtain ⟨hgo, hend⟩ := hs.exec_flags h
  obtain ⟨-, -, -, -, hieDone, hieErr, -⟩ := commandsKeepHostRegisters i s t h
  refine ⟨fun hb => ?busy, fun hb => ?ended⟩
  case busy =>
    obtain ⟨hd, he⟩ := hgo hb
    exact irq_of_quiet hd he
  case ended => rw [irq_of_done_eq_not_err (hend hb), hieDone, hieErr]

end Sys2Proof.Machine
end

section
/-! PROOFS. Reset and hazards (spec/70_reset_and_hazards.md): the reset transition (O47), the clean sequence (O43), and
that under every fair schedule every command ends (O53). -/

namespace Sys2Proof.Machine

variable {i : Instr} {s t u w : State} {e : Event} {es : List Event} {σ : Nat → Event}

/-! ## Reset -/

/-- Settles O47: the turn of a reset event is `resetBlock`, whatever access it loses. -/
theorem resetTransition : Obligations.ResetTransition := fun _ _ _ h => step_event h

/-! ## Abort, then clear -/

/-- R198: after a write to `CTRL` with bit 2 set no command is in flight. -/
theorem writeCtrl_busy_of_abort {v : Word} (hv : v.getLsbD 2 = true) (s : State) : (writeCtrl v s).busy = false := by
  rcases writeCtrl_cases v s with ⟨-, -, e⟩ | ⟨hn, e⟩ <;> rw [e]
  · rfl
  · exact hn.resolve_left fun h => ne_true_of_eq_false h hv

/-- R34, R198: a write to `CTRL` touches the enables, `BUSY`, `ERR` and `ERRCODE` only. -/
theorem writeCtrl_eq (v : Word) (s : State) : writeCtrl v s =
    { s with ieDone := v.getLsbD 0, ieErr := v.getLsbD 1, busy := (writeCtrl v s).busy, err := (writeCtrl v s).err,
             errcode := (writeCtrl v s).errcode } := by
  rcases writeCtrl_cases v s with ⟨-, -, e⟩ | ⟨-, e⟩
  · rw [e]; rfl
  · rw [e]

/-- R35: ones in bits 1 to 3 clear every flag and the code. -/
theorem writeStatus_clearAll (s : State) :
    writeStatus 0xE s = { s with done := false, err := false, errcode := 0, ovr := false } := by
  simp [writeStatus]

/-- Settles O43: the abort leaves the block idle, and the clear takes the flags it leaves. -/
theorem softwareCleanSequence : Obligations.SoftwareCleanSequence := by
  intro s es h
  have hctrl := step_writeCtrl h
  have hidle := writeCtrl_busy_of_abort (v := 4) (by decide)
    { s with events := .access (.write 0x10 8 0xE) :: es, rsp := some .written }
  rw [writeCtrl_eq] at hctrl
  refine ⟨_, (run_succ 1 hctrl).trans (run_succ 0 (step_writeStatus rfl)), ?_⟩
  rw [writeStatus_clearAll]
  exact ⟨rfl, hidle, rfl, rfl, rfl, rfl, rfl, rfl, rfl, rfl, rfl, rfl, rfl, rfl⟩

/-! ## States the engine does not tell apart -/

/-- `u` is `s` but for the host's side, which the engine neither reads nor writes (R186, R188). -/
structure SameEngineSide (s u : State) : Prop where
  eq : u = withHostSide s u

theorem SameEngineSide.refl (s : State) : SameEngineSide s s := ⟨rfl⟩

theorem SameEngineSide.events (s : State) (es : List Event) : SameEngineSide s { s with events := es } := ⟨rfl⟩

theorem SameEngineSide.trans (h : SameEngineSide s u) (k : SameEngineSide u w) : SameEngineSide s w :=
  ⟨by rw [k.eq, h.eq]; rfl⟩

theorem SameEngineSide.busy (h : SameEngineSide s u) : u.busy = s.busy := by rw [h.eq]; rfl

theorem SameEngineSide.engOp (h : SameEngineSide s u) : u.engOp = s.engOp := by rw [h.eq]; rfl

/-- R186: engine steps keep such states so. -/
theorem SameEngineSide.engineOf (h : SameEngineSide s u) (i : Instr) : SameEngineSide (engineOf i s) (engineOf i u) :=
  ⟨by rw [h.eq, engineOf_withHostSide]; rfl⟩

/-- R37, R38: with a command in flight the flags are down, so that what the engine works on decides. -/
theorem Inv.sameEngineSide (hs : Inv s) (hu : Inv u) (hb : s.busy = true)
    (hv : Spec.engineView u = Spec.engineView s) : SameEngineSide s u := by
  obtain ⟨hsd, hse⟩ := hs.quiet hb
  obtain ⟨hud, hue⟩ := hu.quiet ((busy_of_engineView_eq hv).trans hb)
  exact ⟨eq_withHostSide hv (hud.trans hsd.symm) (hue.trans hse.symm) ((hu.noCode hue).trans (hs.noCode hse).symm)⟩

/-- R47: an engine step keeps `ENG_OP`. -/
theorem engineOf_engOp (i : Instr) (s : State) : (engineOf i s).engOp = s.engOp := by
  obtain ⟨-, -, -, -, -, -, -, -, -, -, -, hop, -⟩ := engineOf_keeps i s
  exact hop

/-! ## One event while a command is in flight -/

/-- R34, R198: an abort leaves no command in flight. -/
theorem step_abort {a : Access} (h : s.events = .access a :: es) (ha : isAbort a = true) :
    ∃ t, step s = .next t ∧ t.busy = false := by
  cases a with
  | read off size => exact absurd ha Bool.false_ne_true
  | write off size v =>
    simp only [isAbort, Bool.and_eq_true, beq_iff_eq] at ha
    obtain ⟨⟨hl, rfl⟩, hv⟩ := ha
    obtain ⟨rfl, -⟩ := (legal_iff _ _).1 hl
    exact ⟨_, step_writeCtrl h, writeCtrl_busy_of_abort hv _⟩

/-- R42, R84, R198, R230: an access or a reset ends the command in flight or leaves the engine's side as it is. -/
theorem Inv.step_otherEvent (hs : Inv s) (hb : s.busy = true) (he : s.events = e :: es) (hhost : e ≠ .host)
    (heng : e ≠ .engine) : ∃ t, step s = .next t ∧ (t.busy = false ∨ SameEngineSide s t) := by
  cases e with
  | host => exact absurd rfl hhost
  | engine => exact absurd rfl heng
  | reset lost => exact ⟨_, resetTransition s es lost he, .inl rfl⟩
  | access a =>
    cases ha : isAbort a with
    | true =>
      obtain ⟨t, ht, hidle⟩ := step_abort he ha
      exact ⟨t, ht, .inl hidle⟩
    | false =>
      obtain ⟨t, ht, -, hv⟩ := accessesKeepTheCommandInFlight s es a he hb ha
      exact ⟨t, ht, .inr (hs.sameEngineSide (everyStepKeepsTheInvariant s t hs ht) hb hv)⟩

/-! ## Fair schedules -/

/-- R148, R183: enough engine steps end every command in flight, `FACTOR` on 1 without a limit apart. -/
theorem Inv.exists_iterate_idle (hs : Inv s) (hb : s.busy = true) (ho : s.engOp = i.opcode)
    (hone : i = .factor → s.sa ≠ 1 ∨ s.slim ≠ 0) : ∃ m, ((Machine.engineOf i)^[m] s).busy = false := by
  by_cases hi : i = .factor
  · subst hi
    have hn := hs.one_le_sa_of_factor hb ho
    by_cases hlim : s.slim = 0
    · have hne : s.sa ≠ 1 := (hone rfl).resolve_right (not_not_intro hlim)
      exact exists_rhoRun_idle hs ho (by bv_omega)
    · exact ⟨_, rhoRun_limit ((hs.rho hb ho).limit hlim) hlim⟩
  · exact ⟨1, engineOf_busy_of_ne_factor hi s⟩

/-- The engine's turns among the first `k` events of a schedule. -/
def engineTurns (σ : Nat → Event) (k : Nat) : Nat := Nat.count (σ · = .engine) k

/-- R246: under a fair schedule the engine takes any number of turns. -/
theorem Fair.exists_engineTurns (h : Fair σ) (m : Nat) : ∃ k, engineTurns σ k = m := by
  have hinf : {k | σ k = .engine}.Infinite := Set.infinite_of_forall_exists_gt fun k => by
    obtain ⟨j, hkj, hj⟩ := h (k + 1)
    exact ⟨j, hj, hkj⟩
  exact ⟨_, Nat.count_nth_of_infinite hinf m⟩

/-- While a schedule leaves the command in flight, the engine's side is that of the engine steps alone, as many as the
engine has had turns (R186). -/
theorem Inv.runSchedule_engineSide (hs : Inv s) (ho : s.engOp = i.opcode) (hhost : ∀ k, σ k ≠ .host)
    (hbusy : ∀ k t, runSchedule σ k s = .next t → t.busy = true) (k : Nat) :
    ∃ t, runSchedule σ k s = .next t ∧ Inv t ∧ t.engOp = i.opcode ∧
      SameEngineSide ((Machine.engineOf i)^[engineTurns σ k] s) t := by
  induction k with
  | zero => exact ⟨s, rfl, hs, ho, .refl s⟩
  | succ k ih =>
    obtain ⟨t, hrun, hinv, hop, hside⟩ := ih
    have hinv' := hinv.withEvents [σ k]
    have hb : t.busy = true := hbusy k t hrun
    by_cases heng : σ k = .engine
    case pos =>
      have hcount : engineTurns σ (k + 1) = engineTurns σ k + 1 := Nat.count_succ_eq_succ_count_iff.2 heng
      have hstep := hinv'.step_eq_engineOf hb (congrArg (· :: []) heng) hop
      refine ⟨_, (runSchedule_succ hrun).trans hstep, everyStepKeepsTheInvariant _ _ hinv' hstep,
        (engineOf_engOp i _).trans hop, ?_⟩
      rw [hcount, Function.iterate_succ_apply']
      exact (hside.trans (.events t [])).engineOf i
    case neg =>
      have hcount : engineTurns σ (k + 1) = engineTurns σ k := Nat.count_succ_eq_count_iff.2 heng
      obtain ⟨u, hstep, hu⟩ := hinv'.step_otherEvent hb rfl (hhost k) heng
      have hrun' := (runSchedule_succ hrun).trans hstep
      have hside' := hu.resolve_left (ne_false_of_eq_true (hbusy (k + 1) u hrun'))
      rw [hcount]
      exact ⟨u, hrun', everyStepKeepsTheInvariant _ _ hinv' hstep, hside'.engOp.trans hop,
        (hside.trans (.events t [σ k])).trans hside'⟩

/-- Settles O53: a command that no event of the schedule ended would have had the engine steps that end it. -/
theorem fairSchedulesEndEveryCommand : Obligations.FairSchedulesEndEveryCommand := by
  intro σ s hfair hhost hs hb hone
  by_contra hnever
  have hbusy (k : Nat) (t : State) (h : runSchedule σ k s = .next t) : t.busy = true :=
    eq_true_of_ne_false fun hidle => hnever ⟨k, t, h, hidle⟩
  obtain ⟨i, ho, -⟩ := hs.inFlight hb
  obtain ⟨m, hm⟩ := hs.exists_iterate_idle hb ho fun hi => hone (hi ▸ ho)
  obtain ⟨k, rfl⟩ := hfair.exists_engineTurns m
  obtain ⟨t, hrun, -, -, hside⟩ := hs.runSchedule_engineSide ho hhost hbusy k
  exact ne_true_of_eq_false (hside.busy.trans hm) (hbusy k t hrun)

end Sys2Proof.Machine
end
